-- ==== Sys2Proof/Word.lean ====
section
/-! DEFINITION. The widths of the values the rules handle (R16, 00_scope.md) and two plain helpers. -/

namespace Sys2Proof

/-- A data byte: 8 bits (R12 `DATA_BITS`). -/
abbrev Byte := BitVec 8

/-- An address of either view: 15 bits (R12 `ADDR_BITS`, R16). -/
abbrev Address := BitVec 15

/-- A request word: 17 bits (R302). -/
abbrev ReqWord := BitVec 17

/-- A vector from the value at each index. -/
def tabulate {α : Type} {n : Nat} (f : Fin n → α) : Vector α n :=
  ⟨(List.ofFn f).toArray, by simp⟩

@[simp] theorem tabulate_get {α : Type} {n : Nat} (f : Fin n → α) (i : Nat) (h : i < n) :
    (tabulate f)[i] = f ⟨i, h⟩ := by
  simp [tabulate]

end Sys2Proof
end

