-- ==== Sys2Proof/Syntax.lean ====
section
/-! DEFINITION. The requests of the opcode table (R302, R303, 30_encoding.md), and the engine's notation for programs (R312). -/

namespace Sys2Proof

/-- The three requests, one constructor per row of spec/opcode_table.json. The operand is the 15-bit ADDR field (R302);
its type leaves no operand that the encoding does not admit (log 18). -/
inductive Instr where
  /-- RD: data read of the ROM view (R491). -/
  | rd (addr : Address)
  /-- IF: opcode fetch of the opcode view (R493). -/
  | ifetch (addr : Address)
  /-- DEC: start decoding (R495). -/
  | dec
deriving DecidableEq, Repr

/-- The two raw forms of a key configuration (R461): nothing about lengths, offset or selectors is assumed here, they are
what KEYCHECK checks (R467). -/
inductive KeyConfig where
  /-- A complete pair of tables. -/
  | plain (xor : List Byte) (sel : List Nat)
  /-- A pair of master tables and the member's offset into both. -/
  | shifted (mxor : List Byte) (msel : List Nat) (offset : Nat)
deriving DecidableEq, Repr

/-- A line of a program in the notation of R312, with its literals as written. `wait` is the word of the test programs
(95_test_vectors.md, Part 3); the rest is R312's list. -/
inductive Line where
  /-- `.keycfg <v>`: sets KEYCFG.VARIANT. -/
  | keycfg (v : Nat)
  /-- `.key ...`: gives KEY_DIRECT. -/
  | key (k : KeyConfig)
  /-- `.image <a>: <byte>, ...`: bytes of E. -/
  | image (cells : List Host.Cell)
  /-- `RD <addr>`. -/
  | rd (addr : Nat)
  /-- `IF <addr>`. -/
  | ifetch (addr : Nat)
  /-- `DEC`. -/
  | dec
  /-- `.word <w>`: the raw request word. -/
  | word (w : Nat)
  /-- `STATUS?`: an observation, not a request. -/
  | statusQuery
  /-- `wait`: no request until PHASE = DONE. -/
  | wait
deriving DecidableEq, Repr

end Sys2Proof
end

