-- ==== Sys2Proof/Config.lean ====
section
/-! DEFINITION. The parameters of R12 (00_scope.md): the fixed ones, the launch parameters, and the two OPEN constants
`PERM_TABLE` and `CATALOGUE` as opaque values of which nothing is known beyond what R401, R462 and R463 state. -/

namespace Sys2Proof

/-- A 4-tuple of data-bit positions as given (R309). That it is a permutation of 0, 2, 4, 6 is checked by PERMCHECK (R403). -/
structure PermTuple where
  /-- The source bit placed at output bit 6. -/
  p0 : Nat
  /-- The source bit placed at output bit 4. -/
  p1 : Nat
  /-- The source bit placed at output bit 2. -/
  p2 : Nat
  /-- The source bit placed at output bit 0. -/
  p3 : Nat
deriving DecidableEq, Repr

/-- The encrypted image E as HOST supplies it: the bytes listed and the length (log 14). A byte not listed is 0x00 (R312). -/
structure Image where
  cells : List Host.Cell
  length : Nat
deriving DecidableEq, Repr

/-- What a launch is given (R12, R702, R703): the image, the size of the opcode view, KEYCFG.VARIANT, KEY_DIRECT, and the
model's parameters PERM_TABLE and CATALOGUE. -/
structure Launch where
  image : Image
  opcodeViewSize : Nat
  variant : BitVec 4
  keyDirect : KeyConfig
  permTable : List PermTuple
  catalogue : List KeyConfig
deriving DecidableEq, Repr

namespace Config

/-- `ROM_SIZE` and `OPBUF_SIZE` (R12). -/
abbrev romSize : Nat := 0x8000
/-- `KEY_LEN` (R12). -/
abbrev keyLen : Nat := 128
/-- `MASTER_LEN` (R12). -/
abbrev masterLen : Nat := 131
/-- `MAX_OFFSET` (R12). -/
abbrev maxOffset : Nat := 3
/-- `PERM_COUNT` (R12). -/
abbrev permCount : Nat := 24
/-- `NUM_VARIANTS` (R12, 90_conflicts.md C1). -/
abbrev numVariants : Nat := 11
/-- The last address, 0x7FFF. -/
abbrev lastAddress : Address := 0x7FFF

@[simp] theorem romSize_eq : romSize = 0x8000 := rfl
@[simp] theorem keyLen_eq : keyLen = 128 := rfl
@[simp] theorem masterLen_eq : masterLen = 131 := rfl
@[simp] theorem maxOffset_eq : maxOffset = 3 := rfl
@[simp] theorem permCount_eq : permCount = 24 := rfl
@[simp] theorem numVariants_eq : numVariants = 11 := rfl
@[simp] theorem lastAddress_toNat : lastAddress.toNat = 32767 := rfl

/-- The 24 permutations of 0, 2, 4, 6, in lexicographic order. This order is only a way to number them: the historical order
is `permOrder` over it. -/
def allTuples : Vector PermTuple 24 :=
  #v[⟨0, 2, 4, 6⟩, ⟨0, 2, 6, 4⟩, ⟨0, 4, 2, 6⟩, ⟨0, 4, 6, 2⟩, ⟨0, 6, 2, 4⟩, ⟨0, 6, 4, 2⟩,
     ⟨2, 0, 4, 6⟩, ⟨2, 0, 6, 4⟩, ⟨2, 4, 0, 6⟩, ⟨2, 4, 6, 0⟩, ⟨2, 6, 0, 4⟩, ⟨2, 6, 4, 0⟩,
     ⟨4, 0, 2, 6⟩, ⟨4, 0, 6, 2⟩, ⟨4, 2, 0, 6⟩, ⟨4, 2, 6, 0⟩, ⟨4, 6, 0, 2⟩, ⟨4, 6, 2, 0⟩,
     ⟨6, 0, 2, 4⟩, ⟨6, 0, 4, 2⟩, ⟨6, 2, 0, 4⟩, ⟨6, 2, 4, 0⟩, ⟨6, 4, 0, 2⟩, ⟨6, 4, 2, 0⟩]

/-- OPEN (D19): the historical order of the 24 tuples. Any order (log 7). -/
opaque permOrder : Equiv.Perm (Fin 24)

/-- `PERM_TABLE` (R401): each of the 24 permutations once, in an order that is not known (log 7). -/
def permTable : List PermTuple :=
  (List.finRange 24).map fun s => allTuples[permOrder s]

/-- OPEN (D18): which catalogue indices are SHIFTED. Index `v` is the shift member at offset `place v` where that is 0 to 3,
and PLAIN otherwise (log 6). -/
opaque place : Equiv.Perm (Fin 11)

/-- OPEN (D18): the shared master XOR table (R463, log 6). -/
opaque masterXor : Fin 131 → Byte

/-- OPEN (D18): the shared master selector table (R463, log 6). -/
opaque masterSel : Fin 131 → Fin 24

/-- OPEN (D18): the XOR table of each PLAIN variant (R462, log 6). -/
opaque plainXor : Fin 11 → Fin 128 → Byte

/-- OPEN (D18): the selector table of each PLAIN variant (R462, log 6). -/
opaque plainSel : Fin 11 → Fin 128 → Fin 24

/-- `CATALOGUE[v]` (R462, R463). -/
def catalogueEntry (v : Fin 11) : KeyConfig :=
  if (place v).val ≤ maxOffset then
    .shifted (List.ofFn masterXor) (List.ofFn fun i => (masterSel i).val) (place v).val
  else
    .plain (List.ofFn (plainXor v)) (List.ofFn fun i => (plainSel v i).val)

/-- `CATALOGUE` (R462): the closed list of 11 entries. -/
def catalogue : List KeyConfig := (List.finRange 11).map catalogueEntry

end Config

end Sys2Proof
end

