-- ==== Sys2Proof/WellFormed.lean ====
section
/-! DEFINITION. What a line of a program must satisfy to stand for a launch parameter or a request (R312, R302, R116).
A request itself (`Instr`) carries its 15-bit operand by type, so every one of them is well formed. -/

namespace Sys2Proof

/-- R116: KEYCFG.VARIANT has 4 bits. R312: `<addr>` is a literal 0x0000-0x7FFF, `.word` takes a 17-bit word, and `.image`
gives bytes of E, whose addresses are 0x0000-0x7FFF (R106). `.key` takes any raw key configuration: the launch checks it (R467). -/
def Line.wf : Line → Bool
  | .keycfg v => decide (v < 16)
  | .key _ => true
  | .image cells => cells.all fun c => decide (c.1 < Config.romSize)
  | .rd addr => decide (addr < Config.romSize)
  | .ifetch addr => decide (addr < Config.romSize)
  | .dec => true
  | .word w => decide (w < 2 ^ 17)
  | .statusQuery => true
  | .wait => true

end Sys2Proof
end

