-- ==== Sys2Proof/Decode.lean ====
section
/-! DEFINITION. The request word (R302 to R305, R310, 30_encoding.md): the decoder, total on all 2^17 words, the encoder,
and the match and mask rows of R304. -/

namespace Sys2Proof

/-- Why a word is reserved (R305). -/
inductive DecodeError where
  /-- OP = 0b11: the words 0x18000-0x1FFFF. -/
  | reservedOp
  /-- OP = 0b10 and ADDR != 0: the words 0x10001-0x17FFF. -/
  | decWithAddress
deriving DecidableEq, Repr

/-- Bits 16..15 of a request word: OP (R302). -/
def opField (w : ReqWord) : BitVec 2 := w.extractLsb' 15 2

/-- Bits 14..0 of a request word: ADDR (R302). -/
def addrField (w : ReqWord) : Address := w.extractLsb' 0 15

/-- R303, R305, R310. -/
def decode (w : ReqWord) : Except DecodeError Instr :=
  if opField w = 0b00 then .ok (.rd (addrField w))
  else if opField w = 0b01 then .ok (.ifetch (addrField w))
  else if opField w = 0b10 then
    if addrField w = 0 then .ok .dec else .error .decWithAddress
  else .error .reservedOp

/-- The word of a request: OP then ADDR, with ADDR = 0 for DEC (R302, R303, R312). -/
def encode : Instr → ReqWord
  | .rd addr => 0b00#2 ++ addr
  | .ifetch addr => 0b01#2 ++ addr
  | .dec => 0b10#2 ++ 0#15

/-- A row of spec/opcode_table.json: the bits compared and their value (R304). -/
structure TableRow where
  mnemonic : String
  matchBits : ReqWord
  mask : ReqWord
deriving DecidableEq, Repr

/-- The rows of R304. -/
def opcodeTable : List TableRow :=
  [⟨"RD", 0x00000, 0x18000⟩, ⟨"IF", 0x08000, 0x18000⟩, ⟨"DEC", 0x10000, 0x1FFFF⟩]

/-- R304: a word matches a row when (word AND mask) = match. -/
def TableRow.matchesWord (r : TableRow) (w : ReqWord) : Bool := w &&& r.mask == r.matchBits

/-- The row of the table an instruction belongs to. -/
def Instr.mnemonic : Instr → String
  | .rd _ => "RD"
  | .ifetch _ => "IF"
  | .dec => "DEC"

/-- The instruction of the word whose bits are `w` (log 10). A request has 17 bits and one length (R302, R311), so a number
with a higher bit set is no request word. -/
def decodeTableWord (_nbits w : Nat) : Option Instr :=
  if w < 2 ^ 17 then
    match decode (BitVec.ofNat 17 w) with
    | .ok i => some i
    | .error _ => none
  else none

end Sys2Proof
end

