-- ==== Sys2Proof/Machine/Flags.lean ====
section
/-! DEFINITION. PHASE, CAUSE and STATUS (R108 to R110, 10_state.md; R602, 60_exceptions.md). The engine has no flags or
condition codes (R112): these two registers and their view are all the status it has. -/

namespace Sys2Proof.Machine

/-- PHASE (R108). -/
inductive Phase where
  /-- Configured, not yet decoded. -/
  | idle
  /-- DECODE in progress. -/
  | busy
  /-- Both views final, reads admitted. -/
  | done
  /-- A fault was raised. -/
  | fault
deriving DecidableEq, Repr

/-- CAUSE (R109, R602). The codes 9..15 are never written, so they have no name (log 17). -/
inductive Cause where
  | none
  | cfgBufferSize
  | cfgTableLength
  | cfgSelectorRange
  | cfgOffsetRange
  | cfgVariantRange
  | readBeforeDone
  | decodeRepeated
  | reservedRequest
deriving DecidableEq, Repr

/-- The 2-bit code of a phase (R108). -/
def phaseCode : Phase → BitVec 2
  | .idle => 0
  | .busy => 1
  | .done => 2
  | .fault => 3

/-- The 4-bit code of a cause (R602). -/
def causeCode : Cause → BitVec 4
  | .none => 0
  | .cfgBufferSize => 1
  | .cfgTableLength => 2
  | .cfgSelectorRange => 3
  | .cfgOffsetRange => 4
  | .cfgVariantRange => 5
  | .readBeforeDone => 6
  | .decodeRepeated => 7
  | .reservedRequest => 8

/-- STATUS (R110): CAUSE in bits 7..4, zero in bits 3..2, PHASE in bits 1..0. -/
def statusByte (c : Cause) (p : Phase) : Byte := causeCode c ++ 0#2 ++ phaseCode p

end Sys2Proof.Machine
end

