-- ==== Sys2Proof/Machine/Permutation.lean ====
section
/-! DEFINITION. The Permutation Library: PERM, PERMCHECK, INV (40_permutation_library.md, R401 to R406), and PERMUTE
(R423, 41_decode_engine.md). -/

namespace Sys2Proof.Machine

/-- The positions that are permuted, in output order: (6, 4, 2, 0) (R405, R406). -/
def identityTuple : PermTuple := ⟨6, 4, 2, 0⟩

/-- The four elements of a tuple in order. -/
def tupleElements (t : PermTuple) : List Nat := [t.p0, t.p1, t.p2, t.p3]

/-- R403, second check: the four elements are 0, 2, 4, 6 in some order. -/
def tupleOk (t : PermTuple) : Bool := [0, 2, 4, 6].all fun b => (tupleElements t).contains b

/-- PERMCHECK (R403): 24 entries, each a permutation of 0, 2, 4, 6, pairwise distinct. -/
def permCheck (T : List PermTuple) : Bool :=
  T.length == Config.permCount && T.all tupleOk && decide T.Nodup

/-- The table of 24 entries that a list which passes PERMCHECK stands for. -/
def permVector (T : List PermTuple) : Vector PermTuple 24 :=
  tabulate fun s => T.getD s.val identityTuple

/-- PERM (R402): `PERM_TABLE[s]`. -/
def perm (T : Vector PermTuple 24) (s : Fin 24) : PermTuple := T[s]

/-- Bit `i` of a byte as a byte of value 0 or 1 (R14, R15). -/
def bitOf (v : Byte) (i : Nat) : Byte := (v >>> i) &&& 1

/-- PERMUTE (R423): bits 7, 5, 3, 1 stay; output bit 6 is bit `p0`, 4 is `p1`, 2 is `p2`, 0 is `p3`. -/
def permute (src : Byte) (t : PermTuple) : Byte :=
  (src &&& 0xAA) ||| (bitOf src t.p0 <<< 6) ||| (bitOf src t.p1 <<< 4) ||| (bitOf src t.p2 <<< 2)
    ||| (bitOf src t.p3 <<< 0)

/-- The output position of the source bit `b` under `t`: `pos[i]` for the `i` with `t[i] = b` (R406). -/
def outputPosition (t : PermTuple) (b : Nat) : Nat :=
  if t.p0 = b then 6 else if t.p1 = b then 4 else if t.p2 = b then 2 else 0

/-- INV (R406): `INV(t)[j] = pos[i]` where `t[i] = pos[j]`. -/
def inverseTuple (t : PermTuple) : PermTuple :=
  ⟨outputPosition t 6, outputPosition t 4, outputPosition t 2, outputPosition t 0⟩

end Sys2Proof.Machine
end

