-- ==== Sys2Proof/Machine/KeyCatalogue.lean ====
section
/-! DEFINITION. The Variant Key Catalogue (42_key_catalogue.md, R461 to R469): key resolution, WINDOW, the effective key
and KEYCHECK. -/

namespace Sys2Proof.Machine

/-- The effective key (R114): XORT and SELT. A selector is an index in 0..23 (R402; log 12). -/
structure EffectiveKey where
  xort : Vector Byte 128
  selt : Vector (Fin 24) 128
deriving DecidableEq, Repr

/-- R467, check 3: the table lengths. -/
def keyLengthsOk : KeyConfig → Bool
  | .plain xor sel => xor.length == Config.keyLen && sel.length == Config.keyLen
  | .shifted mxor msel _ => mxor.length == Config.masterLen && msel.length == Config.masterLen

/-- R467, check 4: the offset of a SHIFTED key is in 0..3. -/
def keyOffsetOk : KeyConfig → Bool
  | .plain _ _ => true
  | .shifted _ _ offset => decide (offset ≤ Config.maxOffset)

/-- R467, check 5: every entry of the supplied selector table is in 0..23, all 131 of a master. -/
def keySelectorsOk : KeyConfig → Bool
  | .plain _ sel => sel.all fun n => decide (n < Config.permCount)
  | .shifted _ msel _ => msel.all fun n => decide (n < Config.permCount)

/-- A well-formed key configuration (R461), whose selectors are in range (R308). -/
def keyWellFormed (k : KeyConfig) : Bool := keyLengthsOk k && keyOffsetOk k && keySelectorsOk k

/-- The SHIFTED entries of a catalogue. -/
def shiftMembers (C : List KeyConfig) : List (List Byte × List Nat × Nat) :=
  C.filterMap fun k =>
    match k with
    | .plain _ _ => none
    | .shifted mxor msel offset => some (mxor, msel, offset)

/-- R463: exactly four entries are SHIFTED, they carry the same masters, and their offsets are 0, 1, 2, 3, one each. -/
def shiftFamilyOk (C : List KeyConfig) : Bool :=
  (shiftMembers C).length == 4
    && (shiftMembers C).all (fun m => (shiftMembers C).all fun m' => m.1 == m'.1 && m.2.1 == m'.2.1)
    && [0, 1, 2, 3].all fun o => (shiftMembers C).any fun m => m.2.2 == o

/-- What the OPEN parameter CATALOGUE must satisfy (R462, R463, D18; log 9). -/
def catalogueOk (C : List KeyConfig) : Bool :=
  C.length == Config.numVariants && C.all keyWellFormed && shiftFamilyOk C

/-- Key resolution (R464): variants 0..10 select the catalogue, 15 selects KEY_DIRECT, 11..14 nothing. -/
def resolveKey (variant : BitVec 4) (C : List KeyConfig) (direct : KeyConfig) : Option KeyConfig :=
  if variant.toNat < Config.numVariants then C[variant.toNat]?
  else if variant = 15 then some direct
  else none

/-- WINDOW (R465): the 128 entries of a master table from index `o` on. -/
def window {α : Type} (M : List α) (o : Nat) : List α := (M.drop o).take Config.keyLen

/-- The effective XOR table (R466). -/
def effectiveXor : KeyConfig → List Byte
  | .plain xor _ => xor
  | .shifted mxor _ offset => window mxor offset

/-- The effective selector table (R466): the same offset as for the XOR table. -/
def effectiveSel : KeyConfig → List Nat
  | .plain _ sel => sel
  | .shifted _ msel offset => window msel offset

/-- The effective key (R466) of a configuration that passed KEYCHECK: 128 entries, every selector in 0..23. -/
def effectiveKey (k : KeyConfig) : EffectiveKey :=
  { xort := tabulate fun i => (effectiveXor k).getD i.val 0
    selt := tabulate fun i => Fin.ofNat 24 ((effectiveSel k).getD i.val 0) }

/-- What XORT and SELT hold where KEYCHECK failed: the spec defines no value, nothing reads it (DESIGN CHOICE, log 8). -/
def noKey : EffectiveKey := ⟨tabulate fun _ => 0, tabulate fun _ => 0⟩

/-- The 5-bit field that stores a selector (R115, R308). -/
def selectorField (s : Fin 24) : BitVec 5 := BitVec.ofNat 5 s.val

/-- The selector a 5-bit field holds; the values 24..31 are illegal (R308). -/
def selectorOfField (f : BitVec 5) : Option (Fin 24) :=
  if h : f.toNat < 24 then some ⟨f.toNat, h⟩ else none

/-- KEYCHECK (R467): the cause of the first check that fails, or none. -/
def keycheck (L : Launch) : Option Cause :=
  match resolveKey L.variant L.catalogue L.keyDirect with
  | none => some .cfgVariantRange
  | some k =>
    if L.image.length ≠ Config.romSize ∨ L.opcodeViewSize ≠ Config.romSize then some .cfgBufferSize
    else if keyLengthsOk k = false then some .cfgTableLength
    else if keyOffsetOk k = false then some .cfgOffsetRange
    else if keySelectorsOk k = false then some .cfgSelectorRange
    else none

end Sys2Proof.Machine
end

