-- ==== Sys2Proof/Machine/State.lean ====
section
/-! DEFINITION. The state of the engine (10_state.md, R102) as plain data, the reasons a step can stop, and the state
right after reset (R119). -/

namespace Sys2Proof.Machine

/-- The two memories that requests reach (R201). -/
inductive View where
  /-- The ROM view, ROMV (R106). -/
  | romv
  /-- The opcode view, OPV (R107). -/
  | opv
deriving DecidableEq, Repr

/-- The agents that issue requests (R101). The engine does not check which one did (R610; log 13). -/
inductive Requester where
  | host
  | cpu
deriving DecidableEq, Repr

/-- One turn in the total order of steps (R210; log 1). -/
inductive Turn where
  /-- A request word presented by HOST or CPU. -/
  | request (issuer : Requester) (word : ReqWord)
  /-- A turn of ENGINE. -/
  | engine
  /-- HOST waits for DONE, issuing nothing (R703, step 5; log 15). -/
  | wait
deriving DecidableEq, Repr

/-- The bytes of a view that differ from what an unlisted address reads as, by rising address. -/
abbrev Memory := List Host.Cell

/-- The engine's state. `pending` and `returned` are the model's own fields (logs 1 and 11); the rest is R102's table.
STATUS is a view, `State.status` in Ops. -/
structure State where
  /-- ROMV (R106). -/
  romv : Memory
  /-- OPV (R107, R120). -/
  opv : Memory
  /-- CNT (R104). -/
  cnt : Address
  /-- SRC (R105). -/
  src : Byte
  /-- PHASE (R108). -/
  phase : Phase
  /-- CAUSE (R109). -/
  cause : Cause
  /-- KEYCFG.VARIANT (R116). -/
  keycfg : BitVec 4
  /-- XORT and SELT (R114). -/
  key : EffectiveKey
  /-- PERM_TABLE (R113). -/
  permTable : Vector PermTuple 24
  /-- The turns still to be taken, next one first. -/
  pending : List Turn
  /-- The bytes that RD and IF have returned, oldest first (R494, R710). -/
  returned : List Byte
deriving DecidableEq, Repr

/-- Where the machine stops without a next state. The faults of 60_exceptions.md are not here: they are the phase FAULT
of the next state (R606). -/
inductive Fault where
  /-- Raised by IF admitted in DONE at an OPV entry that holds no value. R120 forbids to give it one. Safe: no run from a
  launch reaches it, since DONE implies that every entry was written (R436; log 4). -/
  | unwrittenOpcodeByte
deriving DecidableEq, Repr

/-- What the model refuses. -/
inductive Refusal where
  /-- An instruction without a meaning, raised by its arm of `exec` alone. Safe. No arm raises it. -/
  | notModelled (mnemonic : String)
  /-- Raised by `launch` for a PERM_TABLE that fails PERMCHECK (R403). Safe. -/
  | permTableRejected
  /-- Raised by `launch` for a CATALOGUE that is not as R462 and R463 say (log 9). Safe. -/
  | catalogueRejected
deriving DecidableEq, Repr

/-- The state right after reset (R119) for the launch that `resetLaunch` names: an image of which no byte is listed, KEYCFG 0,
and the OPEN constants of Config (logs 2, 3, 5, 6, 7). The configuration check passes, so PHASE is IDLE. -/
def State.reset : State :=
  { romv := []
    opv := []
    cnt := 0
    src := 0
    phase := .idle
    cause := .none
    keycfg := 0
    key := effectiveKey (Config.catalogueEntry 0)
    permTable := permVector Config.permTable
    pending := []
    returned := [] }

end Sys2Proof.Machine
end

