-- ==== Sys2Proof/Machine/Ops.lean ====
section
/-! DEFINITION. The named operations: MemRead and MemWrite over the two views (R203, 20_memory.md), the raising of a
fault (R606, 60_exceptions.md), the response of a request (R494), STATUS (R110), and whose turn it is (R210). -/

namespace Sys2Proof.Machine

/-! ### Memory -/

/-- What an unlisted address of ROMV reads as (R312: a byte not listed is 0x00; log 3). -/
def unlistedRom : Byte := 0

/-- What an unlisted address reads as: 0x00 in ROMV, no value in OPV (R120). -/
def unlisted : View → Option Byte
  | .romv => some unlistedRom
  | .opv => none

/-- The byte listed for an address. -/
def memLookup : Memory → Nat → Option Byte
  | [], _ => none
  | (b, v) :: m, a => if a = b then some v else memLookup m a

/-- List a byte for an address, keeping the addresses rising. -/
def memInsert : Memory → Nat → Byte → Memory
  | [], a, v => [(a, v)]
  | (b, u) :: m, a, v =>
    if a < b then (a, v) :: (b, u) :: m
    else if a = b then (a, v) :: m
    else (b, u) :: memInsert m a v

/-- Unlist an address. -/
def memErase (m : Memory) (a : Nat) : Memory := m.filter fun c => c.1 != a

/-- The memory after a byte is stored at an address, in canonical form. -/
def memStore (v : View) (m : Memory) (a : Nat) (b : Byte) : Memory :=
  if unlisted v = some b then memErase m a else memInsert m a b

/-- The canonical form: addresses rising and inside the space (R201), no entry equal to what an unlisted address reads as. -/
def Memory.wf (v : View) (m : Memory) : Bool :=
  decide (m.Pairwise fun c d => c.1 < d.1)
    && m.all fun c => decide (c.1 < Config.romSize) && decide (unlisted v ≠ some c.2)

/-- The memory behind a view. -/
def viewOf (v : View) (s : State) : Memory :=
  match v with
  | .romv => s.romv
  | .opv => s.opv

/-- The state with the memory behind a view replaced. -/
def setView (v : View) (m : Memory) (s : State) : State :=
  match v with
  | .romv => { s with romv := m }
  | .opv => { s with opv := m }

/-- MemRead(view, a, 1) (R203); none where the byte holds no value (R120). -/
def memRead (v : View) (a : Address) (s : State) : Option Byte :=
  match memLookup (viewOf v s) a.toNat with
  | some b => some b
  | none => unlisted v

/-- MemWrite(view, a, 1, b) (R203). -/
def memWrite (v : View) (a : Address) (b : Byte) (s : State) : State :=
  setView v (memStore v (viewOf v s) a.toNat b) s

/-- MemRead(ROMV, a, 1): every byte of ROMV holds a value. -/
def romByte (s : State) (a : Address) : Byte := (memLookup s.romv a.toNat).getD unlistedRom

/-- E[a] of an image: the last byte listed for the address, 0x00 where none is (R312; log 14). -/
def imageByte (img : Image) (a : Nat) : Byte := (memLookup img.cells.reverse a).getD 0

/-- ROMV after the image is loaded (R702): the listed bytes inside the image and inside the space (R11; log 14). -/
def loadImage (img : Image) : Memory :=
  img.cells.foldl
    (fun m c => if c.1 < img.length ∧ c.1 < Config.romSize then memStore .romv m c.1 c.2 else m) []

/-! ### Faults, responses, status -/

/-- `raise Fault(cause)` (R606): PHASE <- FAULT, CAUSE <- cause, nothing else. There is no saved pc, vector or mode, and no
return: FAULT is left only by a new launch (R607, R701). -/
def raiseFault (c : Cause) (s : State) : State := { s with phase := .fault, cause := c }

/-- The response of RD and IF in DONE: one byte (R494; log 11). -/
def respond (b : Byte) (s : State) : State := { s with returned := s.returned ++ [b] }

/-- STATUS (R110): observed at any time, without effect. -/
def State.status (s : State) : Byte := statusByte s.cause s.phase

/-! ### Whose turn it is -/

/-- What the next step is, and the state with that turn taken off the list. -/
inductive Move where
  /-- A request word is presented. -/
  | request (word : ReqWord) (s : State)
  /-- ENGINE moves. -/
  | engine (s : State)
  /-- No agent changes the engine. -/
  | rest (s : State)
deriving DecidableEq, Repr

/-- The next move (R210; logs 1 and 15). With nothing pending ENGINE moves: in BUSY it is the only agent with an enabled step
(R709). A wait lets ENGINE move while PHASE is BUSY, ends in DONE, and never ends otherwise (R703, step 5). -/
def nextMove (s : State) : Move :=
  match s.pending with
  | [] => .engine s
  | .request _ w :: later => .request w { s with pending := later }
  | .engine :: later => .engine { s with pending := later }
  | .wait :: later =>
    match s.phase with
    | .busy => .engine s
    | .done => .rest { s with pending := later }
    | .idle => .rest s
    | .fault => .rest s

/-- A request word put before all pending turns. -/
def presentWord (issuer : Requester) (w : ReqWord) (s : State) : State :=
  { s with pending := .request issuer w :: s.pending }

end Sys2Proof.Machine
end

