-- ==== Sys2Proof/Machine/Requests.lean ====
section
/-! DEFINITION. The meanings of the three requests and of a reserved word (43_bus_requests.md, R491 to R497). -/

namespace Sys2Proof.Machine

/-- A read request (R491, R493): no effect in FAULT, READ_BEFORE_DONE in IDLE and BUSY, one byte of the view in DONE. -/
def serveRead (v : View) (addr : Address) (s : State) : Host.Outcome State Fault Refusal :=
  match s.phase with
  | .fault => .next s
  | .idle => .next (raiseFault .readBeforeDone s)
  | .busy => .next (raiseFault .readBeforeDone s)
  | .done =>
    match memRead v addr s with
    | some b => .next (respond b s)
    | none => .fault .unwrittenOpcodeByte

/-- RD (R491): a data read of ROMV. -/
def execRd (addr : Address) (s : State) : Host.Outcome State Fault Refusal := serveRead .romv addr s

/-- IF (R493): an opcode fetch of OPV. -/
def execIfetch (addr : Address) (s : State) : Host.Outcome State Fault Refusal := serveRead .opv addr s

/-- DEC (R495): CNT <- 0 and PHASE <- BUSY in IDLE, DECODE_REPEATED in BUSY and DONE, no effect in FAULT. -/
def execDec (s : State) : Host.Outcome State Fault Refusal :=
  match s.phase with
  | .fault => .next s
  | .idle => .next { s with cnt := 0, phase := .busy }
  | .busy => .next (raiseFault .decodeRepeated s)
  | .done => .next (raiseFault .decodeRepeated s)

/-- A reserved word (R497, R605): RESERVED_REQUEST in any phase but FAULT, whichever reason the decoder names. -/
def serveReserved (_why : DecodeError) (s : State) : Host.Outcome State Fault Refusal :=
  match s.phase with
  | .fault => .next s
  | .idle => .next (raiseFault .reservedRequest s)
  | .busy => .next (raiseFault .reservedRequest s)
  | .done => .next (raiseFault .reservedRequest s)

end Sys2Proof.Machine
end

