-- ==== Sys2Proof/Machine/Dispatch.lean ====
section
/-! DEFINITION. One arm per request: each calls its own meaning. -/

namespace Sys2Proof.Machine

def exec (i : Instr) (s : State) : Host.Outcome State Fault Refusal :=
  match i with
  | .rd addr => Sys2Proof.Machine.execRd addr s
  | .ifetch addr => Sys2Proof.Machine.execIfetch addr s
  | .dec => Sys2Proof.Machine.execDec s

end Sys2Proof.Machine
end

