-- ==== Sys2Proof/Machine/Operands.lean ====
section
/-! DEFINITION. The operand forms that an address gives rise to: ROWSEL and the key-entry index (R306, R307,
30_encoding.md; R421, R425, 41_decode_engine.md). The only operand of a request is the address itself (R302). -/

namespace Sys2Proof.Machine

/-- The two paths (R425): the opcode path uses the even key entry of a row, the data path the odd one. -/
inductive Path where
  | opcode
  | data
deriving DecidableEq, Repr

/-- The path's bit (R307): 0 = opcode, 1 = data. -/
def pathBit : Path → BitVec 1
  | .opcode => 0
  | .data => 1

/-- Bit `i` of an address (R14, R15). -/
def addressBit (a : Address) (i : Nat) : BitVec 1 := a.extractLsb' i 1

/-- ROW (R306, R421): bits 14, 12, 9, 6, 3, 0 of the address, bit 14 most significant. -/
def row (a : Address) : BitVec 6 :=
  addressBit a 14 ++ addressBit a 12 ++ addressBit a 9 ++ addressBit a 6 ++ addressBit a 3 ++ addressBit a 0

/-- The key-entry index `{ROW(a), path}` (R307), a 7-bit value. -/
def keyIndex (a : Address) (p : Path) : BitVec 7 := row a ++ pathBit p

/-- The same index as an index of XORT and SELT. -/
def keyEntry (a : Address) (p : Path) : Fin 128 := ⟨(keyIndex a p).toNat, (keyIndex a p).isLt⟩

end Sys2Proof.Machine
end

