-- ==== Sys2Proof/Machine/Engine.lean ====
section
/-! DEFINITION. The Decode Engine (41_decode_engine.md): XFORM and its two paths, DECODE_STEP, DECODE and its atomic form. -/

namespace Sys2Proof.Machine

/-- XFORM (R426): PERMUTE(src, PERM(SELT[k])) XOR XORT[k] with k = 2*ROW(a) + path. -/
def xform (T : Vector PermTuple 24) (K : EffectiveKey) (src : Byte) (a : Address) (p : Path) : Byte :=
  permute src (perm T K.selt[keyEntry a p]) ^^^ K.xort[keyEntry a p]

/-- XFORM_OP (R427). -/
def xformOp (T : Vector PermTuple 24) (K : EffectiveKey) (src : Byte) (a : Address) : Byte := xform T K src a .opcode

/-- XFORM_DATA (R428). -/
def xformData (T : Vector PermTuple 24) (K : EffectiveKey) (src : Byte) (a : Address) : Byte := xform T K src a .data

/-- The transform of one key entry with tuple `t` and XOR value `c` (R429). -/
def entryTransform (t : PermTuple) (c : Byte) (x : Byte) : Byte := permute x t ^^^ c

/-- Its inverse (R429, part a). -/
def entryInverse (t : PermTuple) (c : Byte) (y : Byte) : Byte := permute (y ^^^ c) (inverseTuple t)

/-- The inverse of one path's transform at an address (R429, part a). -/
def xformInverse (T : Vector PermTuple 24) (K : EffectiveKey) (y : Byte) (a : Address) (p : Path) : Byte :=
  entryInverse (perm T K.selt[keyEntry a p]) K.xort[keyEntry a p] y

/-- DECODE_STEP (R430): SRC is read first, both paths are fed from it, and CNT advances or PHASE becomes DONE. -/
def decodeStep (s : State) : State :=
  let latched : State := { s with src := romByte s s.cnt }
  let opWritten := memWrite .opv s.cnt (xformOp s.permTable s.key latched.src s.cnt) latched
  let written := memWrite .romv s.cnt (xformData s.permTable s.key latched.src s.cnt) opWritten
  if s.cnt = Config.lastAddress then { written with phase := .done }
  else { written with cnt := s.cnt + 1 }

/-- A turn of ENGINE: DECODE_STEP where it is enabled, which is in BUSY only (R430). -/
def engineTurn (s : State) : State :=
  match s.phase with
  | .busy => decodeStep s
  | .idle => s
  | .done => s
  | .fault => s

/-- `n` turns of ENGINE. -/
def engineTurns : Nat → State → State
  | 0, s => s
  | n + 1, s => engineTurns n (engineTurn s)

/-- DECODE (R431): the 32768 DECODE_STEPs that DEC starts. -/
def decodeAll (s : State) : State := engineTurns Config.romSize s

/-- The memory that lists the byte `f a` for every address `a`, in ascending order. -/
@[irreducible] def fullMemory (f : Address → Byte) : Memory :=
  (List.range Config.romSize).map fun n => (n, f (BitVec.ofNat 15 n))

/-- DECODE as one atomic ENGINE step (R438): the state of R433, with CNT = 0x7FFF. -/
def decodeAtomic (s : State) : State :=
  { s with
    opv := fullMemory fun a => xformOp s.permTable s.key (romByte s a) a
    romv := (fullMemory fun a => xformData s.permTable s.key (romByte s a) a).filter
      fun c => decide (unlisted .romv ≠ some c.2)
    cnt := Config.lastAddress
    src := romByte s Config.lastAddress
    phase := .done }

end Sys2Proof.Machine
end

