-- ==== Sys2Proof/Machine/Step.lean ====
section
/-! DEFINITION. One step: one turn of one agent (R210, 20_memory.md; R605, 60_exceptions.md). -/

namespace Sys2Proof.Machine

/-- One step of the total order: a request word is decoded and served, or ENGINE takes its turn. -/
def step (s : State) : Host.Outcome State Fault Refusal :=
  match nextMove s with
  | .request w t =>
    match decode w with
    | .ok i => exec i t
    | .error e => serveReserved e t
  | .engine t => .next (engineTurn t)
  | .rest t => .next t

/-- The state in which the next step serves the request word `w` (log 10). A number that is no 17-bit word presents nothing. -/
def State.withFetchWord (s : State) (_nbits w : Nat) : State :=
  if w < 2 ^ 17 then presentWord .host (BitVec.ofNat 17 w) s else s

end Sys2Proof.Machine
end

