-- ==== Sys2Proof/Machine/Launch.lean ====
section
/-! DEFINITION. Reset, which is launch (70_reset_and_hazards.md, R701, R702). -/

namespace Sys2Proof.Machine

/-- The state with the image loaded, before the configuration check (R702, first lines). -/
def loadedState (L : Launch) : State :=
  { romv := loadImage L.image
    opv := []
    cnt := 0
    src := 0
    phase := .idle
    cause := .none
    keycfg := L.variant
    key := noKey
    permTable := permVector L.permTable
    pending := []
    returned := [] }

/-- The reset sequence (R702): KEYCHECK fails with its first cause, or the effective key is made and PHASE is IDLE. -/
def resetSequence (L : Launch) : State :=
  match keycheck L with
  | some c => raiseFault c (loadedState L)
  | none =>
    match resolveKey L.variant L.catalogue L.keyDirect with
    | some k => { loadedState L with key := effectiveKey k }
    | none => loadedState L

/-- A launch (R701): refused where the model's parameters are not what R403, R462 and R463 demand (log 9). -/
def launch (L : Launch) : Host.Outcome State Fault Refusal :=
  if permCheck L.permTable then
    if catalogueOk L.catalogue then .next (resetSequence L) else .refused .catalogueRejected
  else .refused .permTableRejected

/-- The launch behind `State.reset` (DESIGN CHOICE, logs 3 and 5): KEYCFG 0, an image of which no byte is listed. KEY_DIRECT is
not read with this KEYCFG. -/
def resetLaunch : Launch :=
  { image := ⟨[], Config.romSize⟩
    opcodeViewSize := Config.romSize
    variant := 0
    keyDirect := .plain [] []
    permTable := Config.permTable
    catalogue := Config.catalogue }

end Sys2Proof.Machine
end

