-- ==== Sys2Proof/Machine/Assembler.lean ====
section
/-! DEFINITION. What a program in the notation of R312 (30_encoding.md) stands for: launch parameters and turns. -/

namespace Sys2Proof.Machine

/-- The launch parameters a directive sets (R312); any other line sets none. `.image` lines add up, and of two other directives
of one kind the later holds (log 20). -/
def applyDirective (L : Launch) : Line → Launch
  | .keycfg v => { L with variant := BitVec.ofNat 4 v }
  | .key k => { L with keyDirect := k }
  | .image cells => { L with image := { L.image with cells := L.image.cells ++ cells } }
  | .rd _ => L
  | .ifetch _ => L
  | .dec => L
  | .word _ => L
  | .statusQuery => L
  | .wait => L

/-- The turn a line stands for; directives and the observation `STATUS?` encode nothing (R312). HOST issues DEC and raw words,
CPU issues RD and IF (R610). -/
def lineTurn : Line → Option Turn
  | .keycfg _ => none
  | .key _ => none
  | .image _ => none
  | .rd addr => some (.request .cpu (encode (.rd (BitVec.ofNat 15 addr))))
  | .ifetch addr => some (.request .cpu (encode (.ifetch (BitVec.ofNat 15 addr))))
  | .dec => some (.request .host (encode .dec))
  | .word w => some (.request .host (BitVec.ofNat 17 w))
  | .statusQuery => none
  | .wait => some .wait

/-- The launch a program's directives give, over the parameters `L` for what they do not set. Of the image `L` gives the length
alone: its bytes are those of the program's `.image` lines, and every byte not listed is 0x00 (R312). -/
def programLaunch (L : Launch) (lines : List Line) : Launch :=
  lines.foldl applyDirective { L with image := { L.image with cells := [] } }

/-- A program launched over the parameters `L` and placed before the engine's first step; none where a line is ill formed. -/
def launchProgram (L : Launch) (lines : List Line) : Option (Host.Outcome State Fault Refusal) :=
  if lines.all Line.wf then
    match launch (programLaunch L lines) with
    | .next s => some (.next { s with pending := lines.filterMap lineTurn })
    | .fault r => some (.fault r)
    | .refused r => some (.refused r)
  else none

end Sys2Proof.Machine
end

