-- ==== Sys2Proof/Safety.lean ====
section
/-! DEFINITION. Runs, the end of a run and what is observed of it (R710, 70_reset_and_hazards.md), and the invariants of the
engine. -/

namespace Sys2Proof.Machine

/-- `n` steps of the machine. -/
abbrev run (n : Nat) (s : State) : Host.Outcome State Fault Refusal := Host.Core.run Sys2Proof.core n s

/-- Whether a pending turn is a request. -/
def Turn.isRequest : Turn → Bool
  | .request _ _ => true
  | .engine => false
  | .wait => false

/-- A final state (R710): PHASE = DONE and every request served. -/
def State.final (s : State) : Bool := decide (s.phase = .done) && !s.pending.any Turn.isRequest

/-- A state in which the run has not failed: a faulted state is never final (R710). -/
def State.safe (s : State) : Bool := decide (s.phase ≠ .fault)

/-- The observation of a final state (R710): the two views and the bytes returned. -/
def State.observation (s : State) : Memory × Memory × List Byte := (s.romv, s.opv, s.returned)

/-- How far DECODE has come: OPV holds nothing in IDLE, the entries below CNT in BUSY, and every entry in DONE (R104, R120, R436). -/
def progressOk (s : State) : Prop :=
  match s.phase with
  | .idle => s.cnt = 0 ∧ ∀ a, memRead .opv a s = none
  | .busy => ∀ a, (memRead .opv a s).isSome = true ↔ a < s.cnt
  | .done => s.cnt = Config.lastAddress ∧ ∀ a, (memRead .opv a s).isSome = true
  | .fault => True

/-- The invariant: both memories canonical, PERM_TABLE valid (R401), CAUSE set exactly in FAULT (R109), DECODE's progress. -/
structure State.Inv (s : State) : Prop where
  romvCanonical : Memory.wf .romv s.romv = true
  opvCanonical : Memory.wf .opv s.opv = true
  permTableValid : permCheck s.permTable.toList = true
  causeInFault : s.phase = .fault ↔ s.cause ≠ .none
  progress : progressOk s

/-- The relation of the views to the image `E` that was loaded (R433): untouched in IDLE, decoded below CNT in BUSY, decoded
throughout in DONE. Nothing is said in FAULT, where no request can read them (R606). -/
def State.decodesImage (E : Address → Byte) (s : State) : Prop :=
  match s.phase with
  | .idle => ∀ a, romByte s a = E a
  | .busy => ∀ a,
      (a < s.cnt → romByte s a = xformData s.permTable s.key (E a) a ∧
        memRead .opv a s = some (xformOp s.permTable s.key (E a) a)) ∧
      (s.cnt ≤ a → romByte s a = E a)
  | .done => ∀ a, romByte s a = xformData s.permTable s.key (E a) a ∧
      memRead .opv a s = some (xformOp s.permTable s.key (E a) a)
  | .fault => True

end Sys2Proof.Machine
end

