-- ==== Sys2Proof/Certificates/Slice0/Obligations.lean ====
section
/-! DEFINITION. The statements for the provers, in the order of OBLIGATIONS.json. -/

open Sys2Proof Sys2Proof.Machine

/-! ### Encoding and the step -/

/-- The decoder and the encoder, both written from the request format of 30_encoding.md, are inverse to each other, with every
operand at every value. -/
def Obligations.DecodeAndEncodeAgree : Prop :=
  ∀ (w : ReqWord) (i : Instr), decode w = .ok i ↔ encode i = w

/-- 30_encoding.md, sections 1 and 3 (R304, R310, which the spec marks as derived): the decoder follows the match and mask of each
row; a word that matches none is reserved, none matches two. -/
def Obligations.DecoderFollowsMatchAndMask : Prop :=
  ∀ w : ReqWord,
    (w &&& 0x18000 = 0x00000 → decode w = .ok (.rd (w.extractLsb' 0 15))) ∧
    (w &&& 0x18000 = 0x08000 → decode w = .ok (.ifetch (w.extractLsb' 0 15))) ∧
    (w &&& 0x1FFFF = 0x10000 → decode w = .ok .dec) ∧
    (w &&& 0x18000 ≠ 0x00000 → w &&& 0x18000 ≠ 0x08000 → w &&& 0x1FFFF ≠ 0x10000 → ∃ e, decode w = .error e) ∧
    (opcodeTable.filter fun r => r.matchesWord w).length ≤ 1

/-- 30_encoding.md, Formats: the reserved words are the two ranges, each under its own name. -/
def Obligations.ReservedWordsAreTheTwoRanges : Prop :=
  ∀ w : ReqWord,
    (decode w = .error .reservedOp ↔ 0x18000 ≤ w.toNat) ∧
    (decode w = .error .decWithAddress ↔ 0x10001 ≤ w.toNat ∧ w.toNat ≤ 0x17FFF)

/-- 95_test_vectors.md, V-DECODE-REQ: words written out from the spec decode to the requests they stand for. -/
def Obligations.SpecWordsDecode : Prop :=
  decode 0b00_000000000000000#17 = .ok (.rd 0x0000) ∧ decode 0b00_100000000001000#17 = .ok (.rd 0x4008) ∧
  decode 0b01_100000000001000#17 = .ok (.ifetch 0x4008) ∧ decode 0b01_111111111111111#17 = .ok (.ifetch 0x7FFF) ∧
  decode 0b10_000000000000000#17 = .ok .dec ∧ decode 0b10_000000000000001#17 = .error .decWithAddress ∧
  decode 0b11_000000000000000#17 = .error .reservedOp

/-- A step runs the decoded request on the state with its turn taken off (logs 1 and 10: the list of turns is the model's). -/
def Obligations.StepServesThePresentedRequest : Prop :=
  (∀ (s : State) (who : Requester) (w : ReqWord) (later : List Turn) (i : Instr),
    s.pending = .request who w :: later → decode w = .ok i → step s = exec i { s with pending := later }) ∧
  (∀ (s : State) (nbits w : Nat) (i : Instr),
    decodeTableWord nbits w = some i → step (s.withFetchWord nbits w) = exec i s)

/-- R497: a word that matches no row raises RESERVED_REQUEST, whatever the phase would say of a request, and has no other effect;
in FAULT it has none. -/
def Obligations.ReservedWordRaisesReservedRequest : Prop :=
  ∀ (s : State) (who : Requester) (w : ReqWord) (later : List Turn),
    s.pending = .request who w :: later → (∀ r ∈ opcodeTable, r.matchesWord w = false) →
    (s.phase ≠ .fault → step s = .next { s with pending := later, phase := .fault, cause := .reservedRequest }) ∧
    (s.phase = .fault → step s = .next { s with pending := later })

/-- Logs 1 and 15, the model's choice: with nothing pending, or at a turn of ENGINE, ENGINE moves; a wait lets ENGINE move while
PHASE is BUSY, ends in DONE and otherwise stays. None of these steps stops, and none raises a fault (R437). -/
def Obligations.OtherTurnsMoveEngineOnly : Prop :=
  ∀ (s : State) (later : List Turn),
    (s.pending = [] → step s = .next (engineTurn s)) ∧
    (s.pending = .engine :: later → step s = .next (engineTurn { s with pending := later })) ∧
    (s.pending = .wait :: later → s.phase = .busy → step s = .next (decodeStep s)) ∧
    (s.pending = .wait :: later → s.phase = .done → step s = .next { s with pending := later }) ∧
    (s.pending = .wait :: later → s.phase = .idle ∨ s.phase = .fault → step s = .next s) ∧
    ((engineTurn s).phase = .fault → s.phase = .fault)

/-- Roles and privilege (60_exceptions.md, section 7): a request of HOST and the same request of CPU are served alike. -/
def Obligations.RequesterIsNotChecked : Prop :=
  ∀ (s : State) (w : ReqWord) (later : List Turn),
    step { s with pending := .request .host w :: later } = step { s with pending := .request .cpu w :: later }

/-! ### The requests -/

/-- R491: the word of RD, and RD by phase; in DONE it returns the byte of ROMV, which is the data-path decoding of the loaded
image's byte, changes nothing else, and returns the same byte again (the list `returned` is the model's, log 11). -/
def Obligations.RdServesTheDataByte : Prop :=
  ∀ (s : State) (a : Address),
    decode (0b00#2 ++ a) = .ok (.rd a) ∧
    (s.phase = .fault → exec (.rd a) s = .next s) ∧
    (s.phase = .idle ∨ s.phase = .busy →
      exec (.rd a) s = .next { s with phase := .fault, cause := .readBeforeDone }) ∧
    (s.phase = .done → ∃ b, memRead .romv a s = some b ∧
      exec (.rd a) s = .next { s with returned := s.returned ++ [b] } ∧
      exec (.rd a) { s with returned := s.returned ++ [b] } = .next { s with returned := s.returned ++ [b] ++ [b] } ∧
      ∀ E : Address → Byte, s.decodesImage E → b = xformData s.permTable s.key (E a) a)

/-- R493: the word of IF, and IF by phase; in DONE it returns the byte of OPV, which is the opcode-path decoding of the loaded
image's byte, changes nothing else, and returns the same byte again (the list `returned` is the model's, log 11); under the
invariant there is such a byte. -/
def Obligations.IfServesTheOpcodeByte : Prop :=
  ∀ (s : State) (a : Address),
    decode (0b01#2 ++ a) = .ok (.ifetch a) ∧
    (s.phase = .fault → exec (.ifetch a) s = .next s) ∧
    (s.phase = .idle ∨ s.phase = .busy →
      exec (.ifetch a) s = .next { s with phase := .fault, cause := .readBeforeDone }) ∧
    (s.phase = .done → s.Inv → ∃ b, memRead .opv a s = some b) ∧
    (∀ b, s.phase = .done → memRead .opv a s = some b →
      exec (.ifetch a) s = .next { s with returned := s.returned ++ [b] } ∧
      exec (.ifetch a) { s with returned := s.returned ++ [b] } = .next { s with returned := s.returned ++ [b] ++ [b] } ∧
      ∀ E : Address → Byte, s.decodesImage E → b = xformOp s.permTable s.key (E a) a)

/-- Log 4, the model's choice: an IF admitted in DONE of an entry that holds no value stops. -/
def Obligations.IfOfAnUnwrittenByteStops : Prop :=
  ∀ (s : State) (a : Address), s.phase = .done → memRead .opv a s = none →
    exec (.ifetch a) s = .fault .unwrittenOpcodeByte

/-- R495: the one word of DEC, and DEC by phase; from IDLE it is the 32768th turn of ENGINE, and no earlier one, that reaches DONE. -/
def Obligations.DecStartsDecoding : Prop :=
  decode 0x10000 = .ok .dec ∧ (∀ a : Address, a ≠ 0 → ∃ e, decode (0b10#2 ++ a) = .error e) ∧
  ∀ s : State,
    (s.phase = .fault → exec .dec s = .next s) ∧
    (s.phase = .busy ∨ s.phase = .done → exec .dec s = .next { s with phase := .fault, cause := .decodeRepeated }) ∧
    (s.phase = .idle → exec .dec s = .next { s with cnt := 0, phase := .busy } ∧
      (∀ n, n < 32768 → (engineTurns n { s with cnt := 0, phase := .busy }).phase = .busy) ∧
      (engineTurns 32768 { s with cnt := 0, phase := .busy }).phase = .done ∧
      (s.cause = .none → State.status { s with cnt := 0, phase := .busy } = 0x01))

/-- 43_bus_requests.md, 20_memory.md sections 2 and 4: what RD, IF and DEC leave unchanged when they go on. Every byte of both
views, SRC, KEYCFG, the key, PERM_TABLE and the pending turns; CNT but for DEC in IDLE; PHASE but where the request raises a fault
or is DEC in IDLE, CAUSE but where it raises a fault (in FAULT none is raised); the returned bytes but for RD and IF in DONE. -/
def Obligations.RequestsLeaveTheRestUnchanged : Prop :=
  ∀ (i : Instr) (s t : State), exec i s = .next t →
    (∀ v a, memRead v a t = memRead v a s) ∧
    t.src = s.src ∧ t.keycfg = s.keycfg ∧ t.key = s.key ∧ t.permTable = s.permTable ∧ t.pending = s.pending ∧
    (¬(i = .dec ∧ s.phase = .idle) → t.cnt = s.cnt) ∧
    (s.phase = .fault ∨ t.phase ≠ .fault → ¬(i = .dec ∧ s.phase = .idle) → t.phase = s.phase) ∧
    (s.phase = .fault ∨ t.phase ≠ .fault → t.cause = s.cause) ∧
    (¬(i ≠ .dec ∧ s.phase = .done) → t.returned = s.returned)

/-- 43_bus_requests.md, Responses: RD and IF in DONE return exactly one byte and change no other state, and no other step returns
any: no other request, no reserved word, no turn of ENGINE and no wait (the list `returned` is the model's, log 11). -/
def Obligations.OneBytePerAdmittedRead : Prop :=
  (∀ (i : Instr) (s t : State), exec i s = .next t →
    (i ≠ .dec ∧ s.phase = .done → ∃ b, t = { s with returned := s.returned ++ [b] }) ∧
    (i = .dec ∨ s.phase ≠ .done → t.returned = s.returned)) ∧
  (∀ s t : State, step s = .next t →
    (¬∃ who w later a, s.pending = .request who w :: later ∧ s.phase = .done ∧
      (decode w = .ok (.rd a) ∨ decode w = .ok (.ifetch a))) → t.returned = s.returned)

/-! ### Faults and phases -/

/-- R604: a request is the only step that raises a fault, in the three cases; every request made during BUSY faults. -/
def Obligations.RequestFaultsAreTheThreeCases : Prop :=
  (∀ s t : State, step s = .next t → s.phase ≠ .fault → t.phase = .fault →
    ∃ who w later, s.pending = .request who w :: later ∧
      (((∃ a, decode w = .ok (.rd a) ∨ decode w = .ok (.ifetch a)) ∧ (s.phase = .idle ∨ s.phase = .busy) ∧
          t.cause = .readBeforeDone) ∨
        (decode w = .ok .dec ∧ (s.phase = .busy ∨ s.phase = .done) ∧ t.cause = .decodeRepeated) ∨
        ((∃ e, decode w = .error e) ∧ t.cause = .reservedRequest))) ∧
  (∀ (s : State) (who : Requester) (w : ReqWord) (later : List Turn), s.pending = .request who w :: later →
    (s.phase = .idle ∨ s.phase = .busy → (∃ a, decode w = .ok (.rd a) ∨ decode w = .ok (.ifetch a)) →
      ∃ t, step s = .next t ∧ t.phase = .fault ∧ t.cause = .readBeforeDone) ∧
    (s.phase = .busy ∨ s.phase = .done → decode w = .ok .dec →
      ∃ t, step s = .next t ∧ t.phase = .fault ∧ t.cause = .decodeRepeated) ∧
    (s.phase ≠ .fault → (∃ e, decode w = .error e) →
      ∃ t, step s = .next t ∧ t.phase = .fault ∧ t.cause = .reservedRequest) ∧
    (s.phase = .busy → ∃ t, step s = .next t ∧ t.phase = .fault))

/-- R606: raising a fault sets PHASE and CAUSE and changes nothing else; ENGINE has no step and no request an effect after it. -/
def Obligations.FaultEntryChangesPhaseAndCauseOnly : Prop :=
  ∀ (c : Cause) (s : State),
    raiseFault c s = { s with phase := .fault, cause := c } ∧
    (∀ v a, memRead v a (raiseFault c s) = memRead v a s) ∧
    engineTurn (raiseFault c s) = raiseFault c s ∧
    (∀ i, exec i (raiseFault c s) = .next (raiseFault c s))

/-- R607: from FAULT a run of any length goes on, nothing of the engine changes but the list of turns, and no state of it is final. -/
def Obligations.FaultIsSticky : Prop :=
  ∀ (s : State) (n : Nat), s.phase = .fault →
    ∃ later, run n s = .next { s with pending := later } ∧ State.final { s with pending := later } = false

/-- R111: the phase changes only in the ways it names, at a step and at a launch. -/
def Obligations.PhaseChangesOnlyAsStated : Prop :=
  (∀ s t : State, step s = .next t →
    t.phase = s.phase ∨
    (s.phase = .idle ∧ t.phase = .busy ∧ ∃ who later, s.pending = .request who (encode .dec) :: later) ∨
    (s.phase = .busy ∧ t.phase = .done ∧ s.cnt = 0x7FFF ∧ ∀ who w later, s.pending ≠ .request who w :: later) ∨
    (s.phase ≠ .fault ∧ t.phase = .fault ∧ ∃ who w later, s.pending = .request who w :: later)) ∧
  (∀ (L : Launch) (t : State), launch L = .next t →
    (keycheck L = none → t.phase = .idle) ∧ (∀ c, keycheck L = some c → t.phase = .fault))

/-- R104: CNT is set to 0 by DEC, advanced by exactly 1 by each DECODE_STEP below 0x7FFF, left at 0x7FFF by the one there, which
sets PHASE to DONE, and changed by nothing else. It is the address the DECODE_STEP reads, and no request reads or writes it, but for
the DEC that sets it. -/
def Obligations.CntMovesOnlyAsStated : Prop :=
  (∀ s t : State, step s = .next t →
    (s.phase = .busy → (∀ who w later, s.pending ≠ .request who w :: later) →
      t.src = romByte s s.cnt ∧
      (s.cnt.toNat < 0x7FFF → t.cnt.toNat = s.cnt.toNat + 1 ∧ t.phase = .busy) ∧
      (s.cnt = 0x7FFF → t.cnt = 0x7FFF ∧ t.phase = .done)) ∧
    (s.phase = .idle → (∃ who later, s.pending = .request who (encode .dec) :: later) → t.cnt = 0) ∧
    (¬(s.phase = .busy ∧ ∀ who w later, s.pending ≠ .request who w :: later) →
      ¬(s.phase = .idle ∧ ∃ who later, s.pending = .request who (encode .dec) :: later) → t.cnt = s.cnt)) ∧
  (∀ (s t : State) (c : Address), step s = .next t → (∃ who w later, s.pending = .request who w :: later) →
    step { s with cnt := c } = .next t ∨ step { s with cnt := c } = .next { t with cnt := c })

/-- R109: in every run from a launch CAUSE is NONE exactly outside FAULT; a step changes it only by raising a fault. -/
def Obligations.CauseIsWrittenByFaultsOnly : Prop :=
  (∀ (L : Launch) (t u : State) (turns : List Turn) (n : Nat), launch L = .next t →
    run n { t with pending := turns } = .next u → (u.cause = .none ↔ u.phase ≠ .fault)) ∧
  (∀ s t : State, step s = .next t → t.cause ≠ s.cause →
    s.phase ≠ .fault ∧ ∃ later, t = raiseFault t.cause { s with pending := later })

/-- 10_state.md, Access rights: a step writes a byte of a view only where ENGINE moves in BUSY, and then only at CNT. -/
def Obligations.OnlyEngineInBusyWritesTheViews : Prop :=
  ∀ (s t : State) (v : View) (a : Address), step s = .next t → memRead v a t ≠ memRead v a s →
    s.phase = .busy ∧ a = s.cnt ∧ ∀ who w later, s.pending ≠ .request who w :: later

/-- 10_state.md, section 6: KEYCFG, the effective key and PERM_TABLE never change during a run. -/
def Obligations.ConfigurationNeverChanges : Prop :=
  ∀ (s t : State) (n : Nat), run n s = .next t →
    t.keycfg = s.keycfg ∧ t.key = s.key ∧ t.permTable = s.permTable

/-- 10_state.md, section 5, and the codes of 60_exceptions.md, section 2: the fields of STATUS, the four codes of PHASE and the
nine of CAUSE. -/
def Obligations.StatusLayout : Prop :=
  (∀ s : State, s.status.extractLsb' 0 2 = phaseCode s.phase ∧ s.status.extractLsb' 2 2 = 0 ∧
    s.status.extractLsb' 4 4 = causeCode s.cause) ∧
  (∀ s : State, s.phase = .fault → s.cause = .readBeforeDone → s.status = 0x63) ∧
  (∀ s : State, s.phase = .done → s.cause = .none → s.status = 0x02) ∧
  (phaseCode .idle = 0 ∧ phaseCode .busy = 1 ∧ phaseCode .done = 2 ∧ phaseCode .fault = 3) ∧
  (causeCode .none = 0 ∧ causeCode .cfgBufferSize = 1 ∧ causeCode .cfgTableLength = 2 ∧ causeCode .cfgSelectorRange = 3 ∧
    causeCode .cfgOffsetRange = 4 ∧ causeCode .cfgVariantRange = 5 ∧ causeCode .readBeforeDone = 6 ∧
    causeCode .decodeRepeated = 7 ∧ causeCode .reservedRequest = 8)

/-! ### Memory and the decode loop -/

/-- R203: a write sets the byte it names and no other byte of either view, and no other state. -/
def Obligations.WriteSetsTheNamedByteOnly : Prop :=
  ∀ (v : View) (a : Address) (b : Byte) (s : State),
    memRead v a (memWrite v a b s) = some b ∧
    (∀ v' a', ¬(v' = v ∧ a' = a) → memRead v' a' (memWrite v a b s) = memRead v' a' s) ∧
    { memWrite v a b s with romv := s.romv, opv := s.opv } = s

/-- R430: one DECODE_STEP, enabled in BUSY only. Both bytes come from the byte of ROMV read before either write. -/
def Obligations.DecodeStepDecodesOneAddress : Prop :=
  (∀ s : State, s.phase ≠ .busy → engineTurn s = s) ∧
  ∀ s : State, s.phase = .busy →
    let t := engineTurn s
    t.src = romByte s s.cnt ∧
    memRead .opv s.cnt t = some (xform s.permTable s.key (romByte s s.cnt) s.cnt .opcode) ∧
    memRead .romv s.cnt t = some (xform s.permTable s.key (romByte s s.cnt) s.cnt .data) ∧
    (∀ v a, a ≠ s.cnt → memRead v a t = memRead v a s) ∧
    (s.cnt = 0x7FFF → t.phase = .done ∧ t.cnt = s.cnt) ∧
    (s.cnt ≠ 0x7FFF → t.phase = .busy ∧ t.cnt = s.cnt + 1) ∧
    t.cause = s.cause ∧ t.keycfg = s.keycfg ∧ t.key = s.key ∧ t.permTable = s.permTable ∧
    t.pending = s.pending ∧ t.returned = s.returned

/-- 41_decode_engine.md, section 4 (R433, which the spec marks as derived): after DEC from IDLE and DECODE, every byte of OPV is the opcode-path decoding and every byte of ROMV the data-path
decoding of the byte that ROMV held before. -/
def Obligations.DecodePostcondition : Prop :=
  ∀ s t : State, s.phase = .idle → exec .dec s = .next t →
    (decodeAll t).phase = .done ∧ (decodeAll t).cnt = 0x7FFF ∧
    ∀ a, memRead .opv a (decodeAll t) = some (xformOp s.permTable s.key (romByte s a) a) ∧
      memRead .romv a (decodeAll t) = some (xformData s.permTable s.key (romByte s a) a)

/-- 41_decode_engine.md, section 4 (R436, which the spec marks as derived): the turn number n of DECODE is a DECODE_STEP at address n, the only one that writes it; after it the entry of OPV has a
value, and all have one at DONE. -/
def Obligations.DecodeVisitsEachAddressOnce : Prop :=
  ∀ s : State, s.phase = .busy → s.cnt = 0 →
    (∀ n, n < 32768 →
      (engineTurns n s).phase = .busy ∧ (engineTurns n s).cnt.toNat = n ∧
      (∀ v a, a.toNat ≠ n → memRead v a (engineTurns (n + 1) s) = memRead v a (engineTurns n s)) ∧
      (memRead .opv (BitVec.ofNat 15 n) (engineTurns (n + 1) s)).isSome = true) ∧
    (engineTurns 32768 s).phase = .done ∧ ∀ a, (memRead .opv a (engineTurns 32768 s)).isSome = true

/-- 41_decode_engine.md section 4 and 70_reset_and_hazards.md section 4, with the turns of logs 1 and 15: DEC and then a wait take
1 + 32768 steps to DONE and not fewer, and one more step ends the run in a final state. -/
def Obligations.DecThenWaitIsFinal : Prop :=
  ∀ (s : State) (who : Requester), s.phase = .idle → s.pending = [.request who 0x10000, .wait] →
    (∀ n, n < 32768 → ∃ t, run (n + 1) s = .next t ∧ t.phase = .busy ∧ t.cnt.toNat = n) ∧
    ∃ t, run 32769 s = .next t ∧ t.phase = .done ∧ run 32770 s = .next { t with pending := [] } ∧
      State.final { t with pending := [] } = true

/-- 41_decode_engine.md, section 4 (R438, which the spec marks as derived): the 32768 turns of ENGINE and the one atomic step give the same state. -/
def Obligations.AtomicDecodeIsTheStepwiseOne : Prop :=
  ∀ s : State, Memory.wf .romv s.romv = true → Memory.wf .opv s.opv = true → s.phase = .busy → s.cnt = 0 →
    decodeAll s = decodeAtomic s

/-- 41_decode_engine.md, section 4 (R434, which the spec marks as derived): the outputs at an address depend only on the image's byte there, on the row, and on the key. -/
def Obligations.OutputsDependOnByteRowAndKey : Prop :=
  ∀ (s s' : State) (a a' : Address), s.phase = .busy → s'.phase = .busy → s.cnt = 0 → s'.cnt = 0 →
    s.key = s'.key → s.permTable = s'.permTable → row a = row a' → romByte s a = romByte s' a' →
    memRead .opv a (decodeAll s) = memRead .opv a' (decodeAll s') ∧
    memRead .romv a (decodeAll s) = memRead .romv a' (decodeAll s')

/-- Every step keeps the invariant. -/
def Obligations.StepKeepsTheInvariant : Prop :=
  ∀ s t : State, s.Inv → step s = .next t → t.Inv

/-- The state right after reset has the invariant. -/
def Obligations.ResetHasTheInvariant : Prop := State.reset.Inv

/-- Every launch that goes on starts from a state with the invariant. -/
def Obligations.LaunchHasTheInvariant : Prop :=
  ∀ (L : Launch) (t : State), launch L = .next t → t.Inv

/-- Every step keeps the relation of the two views to the loaded image. -/
def Obligations.StepKeepsTheImageRelation : Prop :=
  ∀ (E : Address → Byte) (s t : State), s.decodesImage E → step s = .next t → t.decodesImage E

/-- R433 (which the spec marks as derived), from the launch on: whatever the order of turns, in DONE an RD and an IF return the two decodings of the image's byte. -/
def Obligations.ReadsInDoneDecodeTheImage : Prop :=
  ∀ (L : Launch) (t u : State) (turns : List Turn) (n : Nat), launch L = .next t →
    run n { t with pending := turns } = .next u → u.phase = .done → ∀ a : Address,
      exec (.rd a) u =
        .next { u with returned := u.returned ++ [xformData t.permTable t.key (imageByte L.image a.toNat) a] } ∧
      exec (.ifetch a) u =
        .next { u with returned := u.returned ++ [xformOp t.permTable t.key (imageByte L.image a.toNat) a] }

/-! ### Reset and the key -/

/-- R702: the reset sequence, for a launch whose parameters are accepted. The table that State holds is the launch's own (log 7:
that State holds it is the model's choice). -/
def Obligations.ResetSequence : Prop :=
  ∀ L : Launch, permCheck L.permTable = true → catalogueOk L.catalogue = true →
    ∃ t, launch L = .next t ∧
      (∀ a : Address, a.toNat < L.image.length → romByte t a = imageByte L.image a.toNat) ∧
      (∀ a, memRead .opv a t = none) ∧ t.cnt = 0 ∧ t.keycfg = L.variant ∧ t.permTable = permVector L.permTable ∧
      (∀ c, keycheck L = some c → t.phase = .fault ∧ t.cause = c) ∧
      (keycheck L = none → t.phase = .idle ∧ t.cause = .none ∧
        ∃ k, resolveKey L.variant L.catalogue L.keyDirect = some k ∧ t.key = effectiveKey k)

/-- R464: key resolution; the variants 11 to 14 raise CFG_VARIANT_RANGE. -/
def Obligations.KeyResolution : Prop :=
  ∀ L : Launch, permCheck L.permTable = true → catalogueOk L.catalogue = true →
    (∀ h : L.variant.toNat < L.catalogue.length, L.variant.toNat ≤ 10 ∧
      resolveKey L.variant L.catalogue L.keyDirect = some L.catalogue[L.variant.toNat]) ∧
    (L.variant.toNat ≤ 10 → L.variant.toNat < L.catalogue.length) ∧
    (L.variant = 15 → resolveKey L.variant L.catalogue L.keyDirect = some L.keyDirect) ∧
    (11 ≤ L.variant.toNat → L.variant.toNat ≤ 14 →
      ∃ t, launch L = .next t ∧ t.phase = .fault ∧ t.cause = .cfgVariantRange)

/-- R467: the checks in their order, the first that fails, and the outcome. For a catalogue variant only the buffer sizes can
fail. -/
def Obligations.KeycheckFirstFailureWins : Prop :=
  ∀ L : Launch, catalogueOk L.catalogue = true →
    (11 ≤ L.variant.toNat → L.variant.toNat ≤ 14 → keycheck L = some .cfgVariantRange) ∧
    (L.variant.toNat ≤ 10 ∨ L.variant = 15 → ¬(L.image.length = 0x8000 ∧ L.opcodeViewSize = 0x8000) →
      keycheck L = some .cfgBufferSize) ∧
    (L.image.length = 0x8000 → L.opcodeViewSize = 0x8000 →
      (L.variant.toNat ≤ 10 → keycheck L = none) ∧
      (∀ xor sel, L.variant = 15 → L.keyDirect = .plain xor sel →
        (¬(xor.length = 128 ∧ sel.length = 128) → keycheck L = some .cfgTableLength) ∧
        (xor.length = 128 → sel.length = 128 →
          ((∃ n ∈ sel, 23 < n) → keycheck L = some .cfgSelectorRange) ∧
          ((∀ n ∈ sel, n ≤ 23) → keycheck L = none))) ∧
      (∀ mxor msel o, L.variant = 15 → L.keyDirect = .shifted mxor msel o →
        (¬(mxor.length = 131 ∧ msel.length = 131) → keycheck L = some .cfgTableLength) ∧
        (mxor.length = 131 → msel.length = 131 →
          (3 < o → keycheck L = some .cfgOffsetRange) ∧
          (o ≤ 3 → (∃ n ∈ msel, 23 < n) → keycheck L = some .cfgSelectorRange) ∧
          (o ≤ 3 → (∀ n ∈ msel, n ≤ 23) → keycheck L = none)))) ∧
    (keycheck L = none → (resetSequence L).phase = .idle ∧
      ∃ k, resolveKey L.variant L.catalogue L.keyDirect = some k ∧ (resetSequence L).key = effectiveKey k) ∧
    (∀ c, keycheck L = some c → (resetSequence L).phase = .fault ∧ (resetSequence L).cause = c)

/-- R465: the window of a master table. -/
def Obligations.WindowIsThe128EntriesFromTheOffset : Prop :=
  ∀ (α : Type) (M : List α) (o : Nat), M.length = 131 → o ≤ 3 →
    (window M o).length = 128 ∧ ∀ i (h : o + i < M.length), i < 128 → (window M o)[i]? = some M[o + i]

/-- R466: the effective key of either form; one offset applies to both master tables. -/
def Obligations.EffectiveKeyOfEitherForm : Prop :=
  (∀ (xor : List Byte) (sel : List Nat), keyWellFormed (.plain xor sel) = true → ∀ i : Fin 128,
    xor[i.val]? = some ((effectiveKey (.plain xor sel)).xort[i]) ∧
    sel[i.val]? = some ((effectiveKey (.plain xor sel)).selt[i]).val) ∧
  (∀ (mxor : List Byte) (msel : List Nat) (o : Nat), keyWellFormed (.shifted mxor msel o) = true → ∀ i : Fin 128,
    mxor[o + i.val]? = some ((effectiveKey (.shifted mxor msel o)).xort[i]) ∧
    msel[o + i.val]? = some ((effectiveKey (.shifted mxor msel o)).selt[i]).val)

/-- 42_key_catalogue.md, section 4 (R470, which the spec marks as derived): neighbouring windows of one master table. -/
def Obligations.NeighbouringWindowsShiftByOne : Prop :=
  ∀ (α : Type) (M : List α) (k : Nat), M.length = 131 → k ≤ 2 →
    (∀ i, i ≤ 126 → (window M (k + 1))[i]? = (window M k)[i + 1]? ∧ ((window M k)[i + 1]?).isSome = true) ∧
    (window M (k + 1))[127]? = M[k + 128]? ∧ (M[k + 128]?).isSome = true

/-- 42_key_catalogue.md, section 4 (R471, which the spec marks as derived): neighbouring members of the shift family exchange the paths. -/
def Obligations.NeighbouringMembersExchangeThePaths : Prop :=
  ∀ (T : Vector PermTuple 24) (mxor : List Byte) (msel : List Nat) (k : Nat),
    keyWellFormed (.shifted mxor msel k) = true → k ≤ 2 →
    let K := effectiveKey (.shifted mxor msel k)
    let K' := effectiveKey (.shifted mxor msel (k + 1))
    (∀ r : Nat, ∀ h : r ≤ 63, K'.xort[2 * r] = K.xort[2 * r + 1] ∧ K'.selt[2 * r] = K.selt[2 * r + 1]) ∧
    (∀ r : Nat, ∀ h : r ≤ 62, K'.xort[2 * r + 1] = K.xort[2 * (r + 1)] ∧ K'.selt[2 * r + 1] = K.selt[2 * (r + 1)]) ∧
    (mxor[k + 128]? = some K'.xort[127] ∧ msel[k + 128]? = some K'.selt[127].val) ∧
    (∀ (src : Byte) (a : Address), xformOp T K' src a = xformData T K src a)

/-- R468: the check does not look at XOR values, only at how many there are, and XFORM XORs all eight bits. -/
def Obligations.XorValuesAreNotChecked : Prop :=
  (∀ (L : Launch) (xor xor' : List Byte) (sel : List Nat), xor.length = xor'.length →
    keycheck { L with keyDirect := .plain xor sel } = keycheck { L with keyDirect := .plain xor' sel }) ∧
  (∀ (L : Launch) (mxor mxor' : List Byte) (msel : List Nat) (o : Nat), mxor.length = mxor'.length →
    keycheck { L with keyDirect := .shifted mxor msel o } = keycheck { L with keyDirect := .shifted mxor' msel o }) ∧
  (∀ (T : Vector PermTuple 24) (K : EffectiveKey) (src : Byte) (a : Address) (p : Path) (i : Nat),
    (xform T K src a p).getLsbD i =
      ((permute src (perm T K.selt[keyEntry a p])).getLsbD i ^^ (K.xort[keyEntry a p]).getLsbD i))

/-- 40_permutation_library.md and 42_key_catalogue.md, section 1, for every value of the model's OPEN constants (logs 6 and 7): the
table passes PERMCHECK, and the catalogue has 11 well-formed entries, of which exactly four are SHIFTED, share one pair of masters,
and have the offsets 0, 1, 2, 3. -/
def Obligations.OpenConstantsAreAsStated : Prop :=
  permCheck Config.permTable = true ∧
  catalogueOk Config.catalogue = true ∧ Config.catalogue.length = 11 ∧ (shiftMembers Config.catalogue).length = 4 ∧
  ∀ o, o ≤ 3 → (List.ofFn Config.masterXor, List.ofFn (fun i => (Config.masterSel i).val), o) ∈ shiftMembers Config.catalogue

/-- The reset state is what the launch of logs 3 and 5, the model's choice, gives. -/
def Obligations.ResetIsALaunch : Prop := launch resetLaunch = .next State.reset

/-- R403: PERMCHECK is its three checks, and a launch whose table fails it is refused. -/
def Obligations.PermcheckRefusesTheLaunch : Prop :=
  (∀ T : List PermTuple, permCheck T = true ↔
    T.length = 24 ∧ (∀ t ∈ T, (tupleElements t).Perm [0, 2, 4, 6]) ∧
      ∀ s s' (h : s < T.length) (h' : s' < T.length), s ≠ s' → T[s] ≠ T[s']) ∧
  (∀ L : Launch, (permCheck L.permTable = false → launch L = .refused .permTableRejected) ∧
    ∀ t, launch L = .next t → permCheck L.permTable = true)

/-! ### The permutation library and the transforms -/

/-- R401: a table that passes PERMCHECK lists each permutation of 0, 2, 4, 6 exactly once. -/
def Obligations.PermTableListsEachPermutationOnce : Prop :=
  ∀ T : List PermTuple, permCheck T = true → T.length = 24 ∧
    (∀ s : Fin 24, T[s.val]? = some (perm (permVector T) s) ∧
      (tupleElements (perm (permVector T) s)).Perm [0, 2, 4, 6]) ∧
    (∀ s s' : Fin 24, perm (permVector T) s = perm (permVector T) s' → s = s') ∧
    (∀ t : PermTuple, (tupleElements t).Perm [0, 2, 4, 6] → ∃ s : Fin 24, perm (permVector T) s = t)

/-- 40_permutation_library.md (R405, which the spec marks as derived): the identity tuple stands somewhere in every accepted table, and PERMUTE with it returns its input. -/
def Obligations.IdentityTupleStandsInTheTable : Prop :=
  (∀ T : List PermTuple, permCheck T = true → ∃ s : Fin 24, perm (permVector T) s = ⟨6, 4, 2, 0⟩) ∧
  (∀ x : Byte, permute x ⟨6, 4, 2, 0⟩ = x ∧ permute (permute x ⟨6, 4, 2, 0⟩) ⟨6, 4, 2, 0⟩ = x)

/-- R423: every bit of PERMUTE's result, and its fixed bytes. -/
def Obligations.PermuteMovesTheEvenBits : Prop :=
  (∀ (x : Byte) (t : PermTuple), tupleOk t = true →
    (∀ i, i < 8 → (permute x t).getLsbD i =
      if i = 6 then x.getLsbD t.p0 else if i = 4 then x.getLsbD t.p1 else if i = 2 then x.getLsbD t.p2
      else if i = 0 then x.getLsbD t.p3 else x.getLsbD i) ∧
    (x &&& 0x55 = 0x00 ∨ x &&& 0x55 = 0x55 → permute x t = x)) ∧
  (∀ x : Byte, permute x ⟨6, 4, 2, 0⟩ = x) ∧
  permute 0x3C ⟨2, 4, 6, 0⟩ = 0x78

/-- 41_decode_engine.md, section 2 (R424, which the spec marks as derived): the laws (a) to (e) of PERMUTE. -/
def Obligations.PermuteLaws : Prop :=
  (∀ t : PermTuple, tupleOk t = true →
    Function.Bijective (fun x : Byte => permute x t) ∧
    (∀ x, permute (permute x t) (inverseTuple t) = x) ∧
    (∀ x y, permute (x ^^^ y) t = permute x t ^^^ permute y t) ∧
    (∀ x, permute x t &&& 0xAA = x &&& 0xAA) ∧
    (∀ x, ([6, 4, 2, 0].filter fun i => (permute x t).getLsbD i).length = ([6, 4, 2, 0].filter fun i => x.getLsbD i).length)) ∧
  (∀ x, permute x ⟨6, 4, 2, 0⟩ = x)

/-- 40_permutation_library.md (R406, which the spec marks as derived): the inverse tuple, and the ten self-inverse ones. -/
def Obligations.InverseTupleUndoesPermute : Prop :=
  ∀ t : PermTuple, tupleOk t = true →
    tupleOk (inverseTuple t) = true ∧
    (∀ x, permute (permute x t) (inverseTuple t) = x) ∧
    (∀ i j, i < 4 → j < 4 → (tupleElements t)[i]? = [6, 4, 2, 0][j]? →
      (tupleElements (inverseTuple t))[j]? = [6, 4, 2, 0][i]?) ∧
    (inverseTuple t = t ↔ t ∈ ([⟨6, 4, 2, 0⟩, ⟨4, 6, 2, 0⟩, ⟨2, 4, 6, 0⟩, ⟨0, 4, 2, 6⟩, ⟨6, 2, 4, 0⟩, ⟨6, 0, 2, 4⟩,
      ⟨6, 4, 0, 2⟩, ⟨4, 6, 0, 2⟩, ⟨2, 0, 6, 4⟩, ⟨0, 2, 4, 6⟩] : List PermTuple))

/-- R421, R306: the row of an address in its arithmetic form, and the corner cases. -/
def Obligations.RowTakesSixAddressBits : Prop :=
  (∀ a : Address, (row a).toNat = (a.getLsbD 14).toNat * 32 + (a.getLsbD 12).toNat * 16 + (a.getLsbD 9).toNat * 8 +
    (a.getLsbD 6).toNat * 4 + (a.getLsbD 3).toNat * 2 + (a.getLsbD 0).toNat) ∧
  row 0x0000 = 0 ∧ row 0x7FFF = 63 ∧ row 0x5249 = 63 ∧ row 0x2DB6 = 0 ∧ row 0x4008 = 34

/-- 41_decode_engine.md, section 1 (R422, which the spec marks as derived): the row does not depend on the nine other bits, and each row has exactly 512 addresses. -/
def Obligations.RowIgnoresTheOtherBits : Prop :=
  (∀ a m : Address, m &&& 0x5249 = 0 → row (a ^^^ m) = row a) ∧
  (∀ r : BitVec 6, (Finset.univ.filter fun a : Address => row a = r).card = 512)

/-- R425, R426: the key entry of either path, and XFORM with that entry of both tables. -/
def Obligations.KeyEntryIsTwiceTheRowPlusThePath : Prop :=
  ∀ a : Address, (keyEntry a .opcode).val = 2 * (row a).toNat ∧ (keyEntry a .data).val = 2 * (row a).toNat + 1 ∧
    ∀ (T : Vector PermTuple 24) (K : EffectiveKey) (src : Byte) (p : Path),
      xform T K src a p = permute src (perm T K.selt[keyEntry a p]) ^^^ K.xort[keyEntry a p]

/-- R427, R428: the two paths' transforms by their key entries, their corner cases, and where a DECODE_STEP stores them. -/
def Obligations.PathTransforms : Prop :=
  (∀ s : State, s.phase = .busy →
    memRead .opv s.cnt (engineTurn s) = some (xformOp s.permTable s.key (romByte s s.cnt) s.cnt) ∧
    memRead .romv s.cnt (engineTurn s) = some (xformData s.permTable s.key (romByte s s.cnt) s.cnt)) ∧
  ∀ (T : Vector PermTuple 24) (K : EffectiveKey) (src : Byte) (a : Address),
    (∀ (h : 2 * (row a).toNat < 128),
      xformOp T K src a = permute src (perm T (K.selt[2 * (row a).toNat])) ^^^ K.xort[2 * (row a).toNat] ∧
      (perm T (K.selt[2 * (row a).toNat]) = ⟨6, 4, 2, 0⟩ → K.xort[2 * (row a).toNat] = 0 → xformOp T K src a = src) ∧
      (tupleOk (perm T (K.selt[2 * (row a).toNat])) = true → src = 0xAA ∨ src = 0x55 →
        xformOp T K src a = src ^^^ K.xort[2 * (row a).toNat])) ∧
    (∀ (h : 2 * (row a).toNat + 1 < 128),
      xformData T K src a = permute src (perm T (K.selt[2 * (row a).toNat + 1])) ^^^ K.xort[2 * (row a).toNat + 1] ∧
      (perm T (K.selt[2 * (row a).toNat + 1]) = ⟨6, 4, 2, 0⟩ → K.xort[2 * (row a).toNat + 1] = 0 →
        xformData T K src a = src) ∧
      (tupleOk (perm T (K.selt[2 * (row a).toNat + 1])) = true → src = 0xAA ∨ src = 0x55 →
        xformData T K src a = src ^^^ K.xort[2 * (row a).toNat + 1])) ∧
    2 * (row a).toNat + 1 < 128

/-- 41_decode_engine.md, section 3 (R429, which the spec marks as derived): the inverse of an entry's transform, its double application, and when it is its own inverse. -/
def Obligations.TransformInverseAndInvolution : Prop :=
  ∀ (t : PermTuple) (c : Byte), tupleOk t = true →
    Function.Bijective (entryTransform t c) ∧
    (∀ x, entryInverse t c (entryTransform t c x) = x ∧ entryTransform t c (entryInverse t c x) = x) ∧
    (∀ x, entryTransform t c (entryTransform t c x) = permute (permute x t) t ^^^ permute c t ^^^ c) ∧
    ((∀ x, entryTransform t c (entryTransform t c x) = x) ↔ inverseTuple t = t ∧ permute c t = c) ∧
    (∀ x c', entryTransform ⟨6, 4, 2, 0⟩ c' (entryTransform ⟨6, 4, 2, 0⟩ c' x) = x)

/-- 70_reset_and_hazards.md, section 3 (R704, which the spec marks as derived): feeding the opcode path from the byte the data path wrote gives a wrong byte for some
source byte, at every row whose data-path transform is not the identity. -/
def Obligations.WritingBeforeReadingIsWrong : Prop :=
  ∀ (T : List PermTuple) (K : EffectiveKey) (a : Address), permCheck T = true →
    (∃ x, xformData (permVector T) K x a ≠ x) →
    ∃ x, xformOp (permVector T) K (xformData (permVector T) K x a) a ≠ xformOp (permVector T) K x a

/-- 30_encoding.md, section 2: the 5-bit selector field holds 0..23 (the field is a view of the model's index, log 12); 24..31 are
illegal and fail the configuration check. -/
def Obligations.SelectorFieldHoldsZeroTo23 : Prop :=
  (∀ s : Fin 24, selectorOfField (selectorField s) = some s ∧ (selectorField s).toNat = s.val) ∧
  (∀ f : BitVec 5, 24 ≤ f.toNat → selectorOfField f = none ∧
    ∀ (L : Launch) (xor : List Byte) (sel : List Nat), L.variant = 15 → L.image.length = 0x8000 → L.opcodeViewSize = 0x8000 →
      L.keyDirect = .plain xor sel → xor.length = 128 → sel.length = 128 → f.toNat ∈ sel → keycheck L = some .cfgSelectorRange)
end

