-- ==== Sys2Proof/Laws/Memory.lean ====
section
/-! SUPPORT. Memories as lists: what a store does to every address, and that it keeps the canonical form. -/

namespace Sys2Proof.Machine

@[simp] theorem memLookup_nil (a : Nat) : memLookup [] a = none := rfl

theorem memLookup_cons (b : Nat) (v : Byte) (m : Memory) (a : Nat) :
    memLookup ((b, v) :: m) a = if a = b then some v else memLookup m a := rfl

@[simp] theorem memLookup_insert_self (m : Memory) (a : Nat) (v : Byte) :
    memLookup (memInsert m a v) a = some v := by
  induction m with
  | nil => simp [memInsert, memLookup]
  | cons c m ih =>
    obtain ⟨b, u⟩ := c
    simp only [memInsert]
    split
    · simp [memLookup]
    · split
      · simp [memLookup]
      · next h => simp [memLookup, h, ih]

theorem memLookup_insert_ne (m : Memory) (a : Nat) (v : Byte) {a' : Nat} (h : a' ≠ a) :
    memLookup (memInsert m a v) a' = memLookup m a' := by
  induction m with
  | nil => simp [memInsert, memLookup, h]
  | cons c m ih =>
    obtain ⟨b, u⟩ := c
    simp only [memInsert]
    split
    · simp [memLookup, h]
    · split
      · next hab => subst hab; simp [memLookup, h]
      · simp [memLookup, ih]

@[simp] theorem memLookup_erase_self (m : Memory) (a : Nat) : memLookup (memErase m a) a = none := by
  induction m with
  | nil => rfl
  | cons c m ih =>
    obtain ⟨b, u⟩ := c
    by_cases h : b = a
    · simpa [memErase, h] using ih
    · have h' : a ≠ b := fun e => h e.symm
      simpa [memErase, h, memLookup, h'] using ih

theorem memLookup_erase_ne (m : Memory) (a : Nat) {a' : Nat} (h : a' ≠ a) :
    memLookup (memErase m a) a' = memLookup m a' := by
  induction m with
  | nil => rfl
  | cons c m ih =>
    obtain ⟨b, u⟩ := c
    by_cases hb : b = a
    · subst hb; simpa [memErase, memLookup, h] using ih
    · have : memErase ((b, u) :: m) a = (b, u) :: memErase m a := by simp [memErase, hb]
      rw [this, memLookup_cons, memLookup_cons, ih]

theorem mem_memInsert {m : Memory} {a : Nat} {v : Byte} {c : Host.Cell} (h : c ∈ memInsert m a v) :
    c = (a, v) ∨ c ∈ m := by
  induction m with
  | nil => simpa [memInsert] using h
  | cons d m ih =>
    obtain ⟨b, u⟩ := d
    simp only [memInsert] at h
    split at h
    · simpa using h
    · split at h
      · rcases List.mem_cons.mp h with h | h
        · exact .inl h
        · exact .inr (List.mem_cons_of_mem _ h)
      · rcases List.mem_cons.mp h with h | h
        · exact .inr (h ▸ List.mem_cons_self)
        · exact (ih h).imp id (List.mem_cons_of_mem _)

theorem rising_memInsert {m : Memory} (a : Nat) (v : Byte) (h : m.Pairwise fun c d => c.1 < d.1) :
    (memInsert m a v).Pairwise fun c d => c.1 < d.1 := by
  induction m with
  | nil => simp [memInsert]
  | cons d m ih =>
    obtain ⟨b, u⟩ := d
    obtain ⟨hb, hm⟩ := List.pairwise_cons.mp h
    simp only [memInsert]
    split
    · next hab =>
      refine List.pairwise_cons.mpr ⟨fun c hc => ?_, h⟩
      rcases List.mem_cons.mp hc with rfl | hc
      · exact hab
      · exact Nat.lt_trans hab (hb c hc)
    · split
      · next hab => subst hab; exact List.pairwise_cons.mpr ⟨hb, hm⟩
      · next h1 h2 =>
        refine List.pairwise_cons.mpr ⟨fun c hc => ?_, ih hm⟩
        rcases mem_memInsert hc with rfl | hc
        · show b < a; omega
        · exact hb c hc

theorem memory_wf_iff (v : View) (m : Memory) : Memory.wf v m = true ↔
    (m.Pairwise fun c d => c.1 < d.1) ∧ ∀ c ∈ m, c.1 < 0x8000 ∧ unlisted v ≠ some c.2 := by
  simp [Memory.wf, List.all_eq_true]

@[simp] theorem memory_wf_nil (v : View) : Memory.wf v [] = true := by simp [memory_wf_iff]

/-- A store at an address of the space keeps the canonical form. -/
theorem memory_wf_memStore {v : View} {m : Memory} {a : Nat} (b : Byte) (ha : a < 0x8000)
    (h : Memory.wf v m = true) : Memory.wf v (memStore v m a b) = true := by
  rw [memory_wf_iff] at h ⊢
  unfold memStore
  split
  · exact ⟨h.1.sublist List.filter_sublist, fun c hc => h.2 c (List.mem_filter.mp hc).1⟩
  · next hb =>
    refine ⟨rising_memInsert a b h.1, fun c hc => ?_⟩
    rcases mem_memInsert hc with rfl | hc
    · exact ⟨ha, hb⟩
    · exact h.2 c hc

/-- What a byte of a memory reads as: the listed byte, or what the view reads as where none is listed. -/
def byteAt (v : View) (m : Memory) (a : Nat) : Option Byte := (memLookup m a).or (unlisted v)

@[simp] theorem byteAt_memStore_self (v : View) (m : Memory) (a : Nat) (b : Byte) :
    byteAt v (memStore v m a b) a = some b := by
  unfold memStore byteAt
  split <;> simp [*]

theorem byteAt_memStore_ne (v : View) (m : Memory) (a : Nat) (b : Byte) {a' : Nat} (h : a' ≠ a) :
    byteAt v (memStore v m a b) a' = byteAt v m a' := by
  unfold memStore byteAt
  split
  · rw [memLookup_erase_ne m a h]
  · rw [memLookup_insert_ne m a b h]

theorem memLookup_eq_none_of_lt {m : Memory} {a : Nat} (h : ∀ c ∈ m, a < c.1) : memLookup m a = none := by
  induction m with
  | nil => rfl
  | cons c m ih =>
    obtain ⟨b, u⟩ := c
    have hb : a < b := h (b, u) List.mem_cons_self
    rw [memLookup_cons, if_neg (by omega)]
    exact ih fun c hc => h c (List.mem_cons_of_mem _ hc)

theorem mem_iff_memLookup {m : Memory} (h : m.Pairwise fun c d => c.1 < d.1) (a : Nat) (b : Byte) :
    (a, b) ∈ m ↔ memLookup m a = some b := by
  induction m with
  | nil => simp
  | cons c m ih =>
    obtain ⟨x, u⟩ := c
    obtain ⟨hx, hm⟩ := List.pairwise_cons.mp h
    rw [memLookup_cons]
    by_cases hax : a = x
    · subst hax
      rw [if_pos rfl]
      constructor
      · intro hmem
        rcases List.mem_cons.mp hmem with e | hmem
        · simp only [Prod.mk.injEq] at e; rw [e.2]
        · exact absurd (hx _ hmem) (Nat.lt_irrefl a)
      · intro e
        simp only [Option.some.injEq] at e
        rw [e]; exact List.mem_cons_self
    · rw [if_neg hax, ← ih hm]
      simp [hax]

/-- Two canonical memories that read alike everywhere are the same list. -/
theorem memory_ext {v : View} {m m' : Memory} (h : Memory.wf v m = true) (h' : Memory.wf v m' = true)
    (e : ∀ a, byteAt v m a = byteAt v m' a) : m = m' := by
  rw [memory_wf_iff] at h h'
  have listed : ∀ a b, memLookup m a = some b ↔ memLookup m' a = some b := by
    intro a b
    have ea := e a
    unfold byteAt at ea
    have key : ∀ {n : Memory}, (n.Pairwise fun c d => c.1 < d.1) → (∀ c ∈ n, c.1 < 0x8000 ∧ unlisted v ≠ some c.2) →
        memLookup n a = some b → unlisted v ≠ some b := fun hp hn hl => (hn (a, b) ((mem_iff_memLookup hp a b).mpr hl)).2
    constructor
    · intro hl
      have := key h.1 h.2 hl
      rw [hl] at ea
      cases hl' : memLookup m' a with
      | none => rw [hl'] at ea; exact absurd ea.symm this
      | some b' => rw [hl'] at ea; simpa using ea.symm
    · intro hl
      have := key h'.1 h'.2 hl
      rw [hl] at ea
      cases hl' : memLookup m a with
      | none => rw [hl'] at ea; exact absurd ea this
      | some b' => rw [hl'] at ea; simpa using ea
  have antisymm : ∀ c d : Host.Cell, c ∈ m → d ∈ m' → c.1 < d.1 → d.1 < c.1 → c = d := fun c d _ _ h1 h2 =>
    absurd (Nat.lt_trans h1 h2) (Nat.lt_irrefl _)
  have nodup : ∀ {n : Memory}, (n.Pairwise fun c d => c.1 < d.1) → n.Nodup := fun hp =>
    List.Pairwise.imp (fun {c d : Host.Cell} (hlt : c.1 < d.1) (e : c = d) => Nat.ne_of_lt hlt (congrArg Prod.fst e)) hp
  have perm : m.Perm m' := (List.perm_ext_iff_of_nodup (nodup h.1) (nodup h'.1)).mpr fun c => by
    obtain ⟨a, b⟩ := c
    rw [mem_iff_memLookup h.1, mem_iff_memLookup h'.1]
    exact listed a b
  exact perm.eq_of_pairwise antisymm h.1 h'.1

end Sys2Proof.Machine
end

