-- ==== Sys2Proof/Laws/State.lean ====
section
/-! SUPPORT. One lemma per field for each update of State, and what the updates do to the bytes of both views. -/

namespace Sys2Proof.Machine

section raiseFault
variable (c : Cause) (s : State)
@[simp] theorem raiseFault_romv : (raiseFault c s).romv = s.romv := rfl
@[simp] theorem raiseFault_opv : (raiseFault c s).opv = s.opv := rfl
@[simp] theorem raiseFault_cnt : (raiseFault c s).cnt = s.cnt := rfl
@[simp] theorem raiseFault_src : (raiseFault c s).src = s.src := rfl
@[simp] theorem raiseFault_phase : (raiseFault c s).phase = .fault := rfl
@[simp] theorem raiseFault_cause : (raiseFault c s).cause = c := rfl
@[simp] theorem raiseFault_keycfg : (raiseFault c s).keycfg = s.keycfg := rfl
@[simp] theorem raiseFault_key : (raiseFault c s).key = s.key := rfl
@[simp] theorem raiseFault_permTable : (raiseFault c s).permTable = s.permTable := rfl
@[simp] theorem raiseFault_pending : (raiseFault c s).pending = s.pending := rfl
@[simp] theorem raiseFault_returned : (raiseFault c s).returned = s.returned := rfl
end raiseFault

section respond
variable (b : Byte) (s : State)
@[simp] theorem respond_romv : (respond b s).romv = s.romv := rfl
@[simp] theorem respond_opv : (respond b s).opv = s.opv := rfl
@[simp] theorem respond_cnt : (respond b s).cnt = s.cnt := rfl
@[simp] theorem respond_src : (respond b s).src = s.src := rfl
@[simp] theorem respond_phase : (respond b s).phase = s.phase := rfl
@[simp] theorem respond_cause : (respond b s).cause = s.cause := rfl
@[simp] theorem respond_keycfg : (respond b s).keycfg = s.keycfg := rfl
@[simp] theorem respond_key : (respond b s).key = s.key := rfl
@[simp] theorem respond_permTable : (respond b s).permTable = s.permTable := rfl
@[simp] theorem respond_pending : (respond b s).pending = s.pending := rfl
@[simp] theorem respond_returned : (respond b s).returned = s.returned ++ [b] := rfl
end respond

section memWrite
variable (v : View) (a : Address) (b : Byte) (s : State)
@[simp] theorem memWrite_romv_opv : (memWrite .romv a b s).opv = s.opv := rfl
@[simp] theorem memWrite_romv_romv : (memWrite .romv a b s).romv = memStore .romv s.romv a.toNat b := rfl
@[simp] theorem memWrite_opv_romv : (memWrite .opv a b s).romv = s.romv := rfl
@[simp] theorem memWrite_opv_opv : (memWrite .opv a b s).opv = memStore .opv s.opv a.toNat b := rfl
@[simp] theorem memWrite_cnt : (memWrite v a b s).cnt = s.cnt := by cases v <;> rfl
@[simp] theorem memWrite_src : (memWrite v a b s).src = s.src := by cases v <;> rfl
@[simp] theorem memWrite_phase : (memWrite v a b s).phase = s.phase := by cases v <;> rfl
@[simp] theorem memWrite_cause : (memWrite v a b s).cause = s.cause := by cases v <;> rfl
@[simp] theorem memWrite_keycfg : (memWrite v a b s).keycfg = s.keycfg := by cases v <;> rfl
@[simp] theorem memWrite_key : (memWrite v a b s).key = s.key := by cases v <;> rfl
@[simp] theorem memWrite_permTable : (memWrite v a b s).permTable = s.permTable := by cases v <;> rfl
@[simp] theorem memWrite_pending : (memWrite v a b s).pending = s.pending := by cases v <;> rfl
@[simp] theorem memWrite_returned : (memWrite v a b s).returned = s.returned := by cases v <;> rfl
end memWrite

/-- A byte of a view is the byte of the memory behind it. -/
theorem memRead_eq_byteAt (v : View) (a : Address) (s : State) : memRead v a s = byteAt v (viewOf v s) a.toNat := by
  unfold memRead byteAt
  cases memLookup (viewOf v s) a.toNat <;> rfl

theorem memRead_opv (a : Address) (s : State) : memRead .opv a s = memLookup s.opv a.toNat := by
  rw [memRead_eq_byteAt]
  simp [byteAt, viewOf, unlisted]

/-- Every byte of ROMV holds a value. -/
theorem memRead_romv (a : Address) (s : State) : memRead .romv a s = some (romByte s a) := by
  rw [memRead_eq_byteAt]
  unfold byteAt romByte viewOf unlisted
  cases memLookup s.romv a.toNat <;> rfl

/-- A view's bytes depend on the memory behind it alone. -/
theorem memRead_congr {v : View} {s t : State} (h : viewOf v s = viewOf v t) (a : Address) : memRead v a s = memRead v a t := by
  rw [memRead_eq_byteAt, memRead_eq_byteAt, h]

theorem romByte_congr {s t : State} (h : s.romv = t.romv) (a : Address) : romByte s a = romByte t a := by
  unfold romByte; rw [h]

@[simp] theorem romByte_memWrite_self (a : Address) (b : Byte) (s : State) : romByte (memWrite .romv a b s) a = b := by
  have := byteAt_memStore_self .romv s.romv a.toNat b
  have h := memRead_romv a (memWrite .romv a b s)
  rw [memRead_eq_byteAt] at h
  simpa using h.symm.trans this

theorem romByte_memWrite_ne {a a' : Address} (h : a' ≠ a) (b : Byte) (s : State) :
    romByte (memWrite .romv a b s) a' = romByte s a' := by
  have hn : a'.toNat ≠ a.toNat := fun e => h (BitVec.eq_of_toNat_eq e)
  have := byteAt_memStore_ne .romv s.romv a.toNat b hn
  have h1 := memRead_romv a' (memWrite .romv a b s)
  have h2 := memRead_romv a' s
  rw [memRead_eq_byteAt] at h1 h2
  exact Option.some.inj (h1.symm.trans (this.trans h2))

/-- A write of one byte keeps the canonical form of both memories. -/
theorem memWrite_wf (v : View) (a : Address) (b : Byte) {s : State} (hr : Memory.wf .romv s.romv = true)
    (ho : Memory.wf .opv s.opv = true) :
    Memory.wf .romv (memWrite v a b s).romv = true ∧ Memory.wf .opv (memWrite v a b s).opv = true := by
  cases v
  · exact ⟨memory_wf_memStore b a.isLt hr, ho⟩
  · exact ⟨hr, memory_wf_memStore b a.isLt ho⟩

end Sys2Proof.Machine
end

