-- ==== Sys2Proof/Laws/Engine.lean ====
section
/-! SUPPORT. What a DECODE_STEP and a turn of ENGINE do, field by field and byte by byte. -/

namespace Sys2Proof.Machine

/-- A DECODE_STEP, with every field written out (R430). -/
theorem decodeStep_eq (s : State) : decodeStep s =
    { s with
      romv := memStore .romv s.romv s.cnt.toNat (xformData s.permTable s.key (romByte s s.cnt) s.cnt)
      opv := memStore .opv s.opv s.cnt.toNat (xformOp s.permTable s.key (romByte s s.cnt) s.cnt)
      src := romByte s s.cnt
      cnt := if s.cnt = Config.lastAddress then s.cnt else s.cnt + 1
      phase := if s.cnt = Config.lastAddress then .done else s.phase } := by
  unfold decodeStep
  split
  · next h => simp [h, memWrite, setView, viewOf]
  · simp [memWrite, setView, viewOf]

section decodeStep
variable (s : State)
@[simp] theorem decodeStep_cause : (decodeStep s).cause = s.cause := by rw [decodeStep_eq]
@[simp] theorem decodeStep_keycfg : (decodeStep s).keycfg = s.keycfg := by rw [decodeStep_eq]
@[simp] theorem decodeStep_key : (decodeStep s).key = s.key := by rw [decodeStep_eq]
@[simp] theorem decodeStep_permTable : (decodeStep s).permTable = s.permTable := by rw [decodeStep_eq]
@[simp] theorem decodeStep_pending : (decodeStep s).pending = s.pending := by rw [decodeStep_eq]
@[simp] theorem decodeStep_returned : (decodeStep s).returned = s.returned := by rw [decodeStep_eq]
@[simp] theorem decodeStep_src : (decodeStep s).src = romByte s s.cnt := by rw [decodeStep_eq]

theorem decodeStep_cnt : (decodeStep s).cnt = if s.cnt = Config.lastAddress then s.cnt else s.cnt + 1 := by
  rw [decodeStep_eq]

theorem decodeStep_phase : (decodeStep s).phase = if s.cnt = Config.lastAddress then .done else s.phase := by
  rw [decodeStep_eq]

theorem decodeStep_romv : (decodeStep s).romv =
    memStore .romv s.romv s.cnt.toNat (xformData s.permTable s.key (romByte s s.cnt) s.cnt) := by rw [decodeStep_eq]

theorem decodeStep_opv : (decodeStep s).opv =
    memStore .opv s.opv s.cnt.toNat (xformOp s.permTable s.key (romByte s s.cnt) s.cnt) := by rw [decodeStep_eq]
end decodeStep

/-- The bytes of both views after a DECODE_STEP, at any address. -/
theorem decodeStep_romByte (s : State) (a : Address) : romByte (decodeStep s) a =
    if a = s.cnt then xformData s.permTable s.key (romByte s a) a else romByte s a := by
  have e : romByte (decodeStep s) a =
      romByte (memWrite .romv s.cnt (xformData s.permTable s.key (romByte s s.cnt) s.cnt) s) a :=
    romByte_congr (by rw [decodeStep_romv, memWrite_romv_romv]) a
  rw [e]
  split
  · next h => rw [h, romByte_memWrite_self]
  · next h => exact romByte_memWrite_ne h _ _

theorem decodeStep_opByte (s : State) (a : Address) : memRead .opv a (decodeStep s) =
    if a = s.cnt then some (xformOp s.permTable s.key (romByte s a) a) else memRead .opv a s := by
  rw [memRead_eq_byteAt, memRead_eq_byteAt]
  show byteAt .opv (decodeStep s).opv _ = _
  rw [decodeStep_opv]
  split
  · next h => rw [h, byteAt_memStore_self]
  · next h => exact byteAt_memStore_ne _ _ _ _ fun e => h (BitVec.eq_of_toNat_eq e)

/-- A DECODE_STEP keeps both canonical forms. -/
theorem decodeStep_wf {s : State} (hr : Memory.wf .romv s.romv = true) (ho : Memory.wf .opv s.opv = true) :
    Memory.wf .romv (decodeStep s).romv = true ∧ Memory.wf .opv (decodeStep s).opv = true := by
  rw [decodeStep_romv, decodeStep_opv]
  exact ⟨memory_wf_memStore _ s.cnt.isLt hr, memory_wf_memStore _ s.cnt.isLt ho⟩

theorem engineTurn_busy {s : State} (h : s.phase = .busy) : engineTurn s = decodeStep s := by simp [engineTurn, h]

theorem engineTurn_not_busy {s : State} (h : s.phase ≠ .busy) : engineTurn s = s := by
  unfold engineTurn
  cases hp : s.phase <;> simp_all

@[simp] theorem engineTurns_zero (s : State) : engineTurns 0 s = s := rfl
theorem engineTurns_succ (n : Nat) (s : State) : engineTurns (n + 1) s = engineTurns n (engineTurn s) := rfl

theorem engineTurns_succ' (n : Nat) (s : State) : engineTurns (n + 1) s = engineTurn (engineTurns n s) := by
  induction n generalizing s with
  | zero => rfl
  | succ n ih => rw [engineTurns_succ, ih]; rfl

theorem engineTurns_add (m n : Nat) (s : State) : engineTurns (m + n) s = engineTurns n (engineTurns m s) := by
  induction m generalizing s with
  | zero => simp
  | succ m ih => rw [Nat.succ_add, engineTurns_succ, ih]; rfl

/-- A turn of ENGINE writes no configuration, no cause, no turn and no response. -/
theorem engineTurn_keeps (s : State) :
    (engineTurn s).cause = s.cause ∧ (engineTurn s).keycfg = s.keycfg ∧ (engineTurn s).key = s.key ∧
      (engineTurn s).permTable = s.permTable ∧ (engineTurn s).pending = s.pending ∧
      (engineTurn s).returned = s.returned := by
  by_cases h : s.phase = .busy
  · rw [engineTurn_busy h]; simp
  · rw [engineTurn_not_busy h]; simp

end Sys2Proof.Machine
end

