-- ==== Sys2Proof/Laws/Atomic.lean ====
section
/-! SUPPORT. The memories that list a byte for every address, and the fields of the atomic DECODE. -/

namespace Sys2Proof.Machine

theorem fullMemory_eq_range (f : Address → Byte) :
    fullMemory f = (List.range Config.romSize).map fun n => (n, f (BitVec.ofNat 15 n)) := by
  unfold fullMemory
  exact Eq.refl _

theorem fullMemory_rising (f : Address → Byte) : (fullMemory f).Pairwise fun c d => c.1 < d.1 := by
  rw [fullMemory_eq_range, List.pairwise_map]
  exact List.pairwise_lt_range

theorem mem_fullMemory (f : Address → Byte) (a : Address) (b : Byte) : (a.toNat, b) ∈ fullMemory f ↔ b = f a := by
  rw [fullMemory_eq_range]
  simp only [List.mem_map, List.mem_range, Prod.mk.injEq]
  constructor
  · rintro ⟨n, -, rfl, rfl⟩
    simp
  · rintro rfl
    exact ⟨a.toNat, a.isLt, rfl, by simp⟩

theorem fullMemory_inSpace (f : Address → Byte) {c : Host.Cell} (h : c ∈ fullMemory f) : c.1 < 0x8000 := by
  rw [fullMemory_eq_range] at h
  obtain ⟨n, hn, rfl⟩ := List.mem_map.mp h
  exact List.mem_range.mp hn

@[simp] theorem memLookup_fullMemory (f : Address → Byte) (a : Address) : memLookup (fullMemory f) a.toNat = some (f a) :=
  (mem_iff_memLookup (fullMemory_rising f) _ _).mp ((mem_fullMemory f a _).mpr rfl)

theorem fullMemory_wf_opv (f : Address → Byte) : Memory.wf .opv (fullMemory f) = true :=
  (memory_wf_iff _ _).mpr ⟨fullMemory_rising f, fun _ h => ⟨fullMemory_inSpace f h, nofun⟩⟩

section decodeAtomic
variable (s : State)

theorem decodeAtomic_opv :
    (decodeAtomic s).opv = fullMemory fun a => xformOp s.permTable s.key (romByte s a) a := rfl

theorem decodeAtomic_romv :
    (decodeAtomic s).romv = (fullMemory fun a => xformData s.permTable s.key (romByte s a) a).filter
      fun c => decide (unlisted .romv ≠ some c.2) := rfl
@[simp] theorem decodeAtomic_cnt : (decodeAtomic s).cnt = Config.lastAddress := rfl
@[simp] theorem decodeAtomic_src : (decodeAtomic s).src = romByte s Config.lastAddress := rfl
@[simp] theorem decodeAtomic_phase : (decodeAtomic s).phase = .done := rfl
@[simp] theorem decodeAtomic_cause : (decodeAtomic s).cause = s.cause := rfl
@[simp] theorem decodeAtomic_keycfg : (decodeAtomic s).keycfg = s.keycfg := rfl
@[simp] theorem decodeAtomic_key : (decodeAtomic s).key = s.key := rfl
@[simp] theorem decodeAtomic_permTable : (decodeAtomic s).permTable = s.permTable := rfl
@[simp] theorem decodeAtomic_pending : (decodeAtomic s).pending = s.pending := rfl
@[simp] theorem decodeAtomic_returned : (decodeAtomic s).returned = s.returned := rfl

/-- The atomic DECODE leaves both memories canonical, whatever they were. -/
theorem decodeAtomic_wf : Memory.wf .romv (decodeAtomic s).romv = true ∧ Memory.wf .opv (decodeAtomic s).opv = true := by
  refine ⟨?_, fullMemory_wf_opv _⟩
  rw [decodeAtomic_romv, memory_wf_iff]
  exact ⟨(fullMemory_rising _).sublist List.filter_sublist, fun c h =>
    ⟨fullMemory_inSpace _ (List.mem_filter.mp h).1, of_decide_eq_true (List.mem_filter.mp h).2⟩⟩

end decodeAtomic

end Sys2Proof.Machine
end

