-- ==== Sys2Proof/Laws/Decode.lean ====
section
/-! SUPPORT. The fields of a request word as numbers, and the two fields of an encoded request. -/

namespace Sys2Proof

theorem opField_toNat (w : ReqWord) : (opField w).toNat = w.toNat / 32768 := by
  have := w.isLt
  rw [opField, BitVec.extractLsb'_toNat, Nat.shiftRight_eq_div_pow]
  show w.toNat / 32768 % 4 = _
  omega

theorem addrField_toNat (w : ReqWord) : (addrField w).toNat = w.toNat % 32768 := by
  rw [addrField, BitVec.extractLsb'_toNat, Nat.shiftRight_zero]

theorem joined_toNat (op : BitVec 2) (addr : Address) :
    (op ++ addr : BitVec (2 + 15)).toNat = op.toNat * 32768 + addr.toNat := by
  rw [BitVec.toNat_append, Nat.shiftLeft_eq, show 2 ^ 15 = 32768 from rfl, Nat.mul_comm]
  exact (Nat.two_pow_add_eq_or_of_lt (i := 15) addr.isLt _).symm

theorem encode_rd_toNat (addr : Address) : (encode (.rd addr)).toNat = addr.toNat := by
  rw [encode, joined_toNat]
  simp

theorem encode_ifetch_toNat (addr : Address) : (encode (.ifetch addr)).toNat = 0x8000 + addr.toNat := by
  rw [encode, joined_toNat]
  simp

theorem encode_dec : encode .dec = 0x10000 := by decide

/-- A word is determined by its two fields. -/
theorem reqWord_eq_of_fields {w w' : ReqWord} (ho : opField w = opField w') (ha : addrField w = addrField w') : w = w' := by
  have h1 := congrArg BitVec.toNat ho
  have h2 := congrArg BitVec.toNat ha
  rw [opField_toNat, opField_toNat] at h1
  rw [addrField_toNat, addrField_toNat] at h2
  exact BitVec.eq_of_toNat_eq (by omega)

theorem opField_encode_rd (addr : Address) : opField (encode (.rd addr)) = 0 :=
  BitVec.eq_of_toNat_eq (by rw [opField_toNat, encode_rd_toNat]; have := addr.isLt; show _ = 0; omega)

theorem addrField_encode_rd (addr : Address) : addrField (encode (.rd addr)) = addr :=
  BitVec.eq_of_toNat_eq (by rw [addrField_toNat, encode_rd_toNat]; have := addr.isLt; omega)

theorem opField_encode_ifetch (addr : Address) : opField (encode (.ifetch addr)) = 1 :=
  BitVec.eq_of_toNat_eq (by rw [opField_toNat, encode_ifetch_toNat]; have := addr.isLt; show _ = 1; omega)

theorem addrField_encode_ifetch (addr : Address) : addrField (encode (.ifetch addr)) = addr :=
  BitVec.eq_of_toNat_eq (by rw [addrField_toNat, encode_ifetch_toNat]; have := addr.isLt; omega)

/-- The comparison with the mask 0x18000 looks at OP alone. -/
theorem masked_eq_iff (w : ReqWord) (op : BitVec 2) : w &&& 0x18000 = (op ++ 0#15 : BitVec (2 + 15)) ↔ opField w = op := by
  have key : (w &&& 0x18000).toNat = w.toNat / 32768 * 32768 := by
    rw [BitVec.toNat_and]
    show w.toNat &&& 0x18000 = _
    apply Nat.eq_of_testBit_eq
    intro i
    have hw : 17 ≤ i → w.toNat.testBit i = false := fun h =>
      Nat.testBit_lt_two_pow (Nat.lt_of_lt_of_le w.isLt (Nat.pow_le_pow_right (by omega) h))
    have e : w.toNat / 32768 * 32768 = (w.toNat >>> 15) <<< 15 := by
      rw [Nat.shiftLeft_eq, Nat.shiftRight_eq_div_pow]
    rw [e, Nat.testBit_and, Nat.testBit_shiftLeft, Nat.testBit_shiftRight]
    by_cases h : i < 17
    · interval_cases i <;> simp <;> (intro _; decide)
    · have h15 : 15 + (i - 15) = i := by omega
      rw [h15, hw (by omega)]
      simp
  constructor
  · intro h
    apply BitVec.eq_of_toNat_eq
    have := congrArg BitVec.toNat h
    rw [key, joined_toNat] at this
    rw [opField_toNat]
    simp at this
    omega
  · rintro rfl
    apply BitVec.eq_of_toNat_eq
    rw [key, joined_toNat, opField_toNat]
    simp

end Sys2Proof
end

