-- ==== Sys2Proof/Laws/Launch.lean ====
section
/-! SUPPORT. What the checks of a key configuration say, what loading an image does to ROMV, and what a launch can do. -/

namespace Sys2Proof.Machine

theorem keyLengthsOk_plain (xor : List Byte) (sel : List Nat) :
    keyLengthsOk (.plain xor sel) = true ↔ xor.length = 128 ∧ sel.length = 128 := by
  simp [keyLengthsOk]

theorem keyLengthsOk_shifted (mxor : List Byte) (msel : List Nat) (o : Nat) :
    keyLengthsOk (.shifted mxor msel o) = true ↔ mxor.length = 131 ∧ msel.length = 131 := by
  simp [keyLengthsOk]

@[simp] theorem keyOffsetOk_plain (xor : List Byte) (sel : List Nat) : keyOffsetOk (.plain xor sel) = true := rfl

theorem keyOffsetOk_shifted (mxor : List Byte) (msel : List Nat) (o : Nat) :
    keyOffsetOk (.shifted mxor msel o) = true ↔ o ≤ 3 := by
  simp [keyOffsetOk]

theorem keySelectorsOk_plain (xor : List Byte) (sel : List Nat) :
    keySelectorsOk (.plain xor sel) = true ↔ ∀ n ∈ sel, n < 24 := by
  simp [keySelectorsOk]

theorem keySelectorsOk_shifted (mxor : List Byte) (msel : List Nat) (o : Nat) :
    keySelectorsOk (.shifted mxor msel o) = true ↔ ∀ n ∈ msel, n < 24 := by
  simp [keySelectorsOk]

theorem keyWellFormed_iff (k : KeyConfig) :
    keyWellFormed k = true ↔ keyLengthsOk k = true ∧ keyOffsetOk k = true ∧ keySelectorsOk k = true := by
  simp [keyWellFormed, and_assoc]

theorem catalogueOk_iff (C : List KeyConfig) :
    catalogueOk C = true ↔ C.length = 11 ∧ (∀ k ∈ C, keyWellFormed k = true) ∧ shiftFamilyOk C = true := by
  simp [catalogueOk, and_assoc]

/-- ROMV after loading is canonical, and each byte inside the image is the last one listed for it, 0x00 where none is. -/
theorem loadImage_spec (img : Image) : Memory.wf .romv (loadImage img) = true ∧
    ∀ a, a < img.length → a < 0x8000 → byteAt .romv (loadImage img) a = some (imageByte img a) := by
  obtain ⟨cells, len⟩ := img
  induction cells using List.reverseRecOn with
  | nil =>
    refine ⟨memory_wf_nil _, fun a _ _ => ?_⟩
    simp [loadImage, imageByte, byteAt, unlisted, unlistedRom]
  | append_singleton cells c ih =>
    obtain ⟨b, v⟩ := c
    obtain ⟨hw, hb⟩ := ih
    have hstep : loadImage ⟨cells ++ [(b, v)], len⟩ =
        if b < len ∧ b < Config.romSize then memStore .romv (loadImage ⟨cells, len⟩) b v else loadImage ⟨cells, len⟩ := by
      simp [loadImage, List.foldl_append]
    have hlist : ∀ a, imageByte ⟨cells ++ [(b, v)], len⟩ a = if a = b then v else imageByte ⟨cells, len⟩ a := by
      intro a
      simp only [imageByte, List.reverse_append, List.reverse_cons, List.reverse_nil, List.nil_append,
        List.singleton_append, memLookup_cons]
      split <;> rfl
    rw [hstep]
    refine ⟨?_, fun a ha ha' => ?_⟩
    · split
      · next h => exact memory_wf_memStore v h.2 hw
      · exact hw
    · rw [hlist]
      by_cases hab : a = b
      · subst hab
        rw [if_pos ⟨ha, ha'⟩, if_pos rfl, byteAt_memStore_self]
      · rw [if_neg hab]
        split
        · rw [byteAt_memStore_ne _ _ _ _ hab]; exact hb a ha ha'
        · exact hb a ha ha'

/-- The bytes of ROMV before the configuration check. -/
theorem loadedState_romByte (L : Launch) (a : Address) (h : a.toNat < L.image.length) :
    romByte (loadedState L) a = imageByte L.image a.toNat := by
  have hs := (loadImage_spec L.image).2 a.toNat h a.isLt
  have hr := memRead_romv a (loadedState L)
  rw [memRead_eq_byteAt] at hr
  exact Option.some.inj (hr.symm.trans hs)

/-- Everything the reset sequence can do. -/
theorem resetSequence_cases (L : Launch) :
    (∃ c, keycheck L = some c ∧ resetSequence L = raiseFault c (loadedState L)) ∨
    (keycheck L = none ∧ ∃ k, resolveKey L.variant L.catalogue L.keyDirect = some k ∧
      resetSequence L = { loadedState L with key := effectiveKey k }) := by
  unfold resetSequence
  cases hk : keycheck L with
  | some c => exact .inl ⟨c, rfl, rfl⟩
  | none =>
    refine .inr ⟨rfl, ?_⟩
    cases hr : resolveKey L.variant L.catalogue L.keyDirect with
    | none => simp [keycheck, hr] at hk
    | some k => exact ⟨k, rfl, rfl⟩

/-- A launch that goes on has accepted parameters. -/
theorem launch_next {L : Launch} {t : State} (h : launch L = .next t) :
    permCheck L.permTable = true ∧ catalogueOk L.catalogue = true ∧ t = resetSequence L := by
  unfold launch at h
  split at h
  · next hp =>
    split at h
    · next hc => exact ⟨hp, hc, (Host.Outcome.next.inj h).symm⟩
    · cases h
  · cases h

/-- KEYCHECK names a cause other than NONE. -/
theorem keycheck_ne_none {L : Launch} {c : Cause} (h : keycheck L = some c) : c ≠ .none := by
  unfold keycheck at h
  split at h
  · cases h; simp
  · split at h
    · cases h; simp
    · split at h
      · cases h; simp
      · split at h
        · cases h; simp
        · split at h
          · cases h; simp
          · cases h

end Sys2Proof.Machine
end

