-- ==== Sys2Proof/Laws/PerInstr.lean ====
section
/-! SUPPORT. The family `FieldsOfWord`: every request's word has the OP of its row of the opcode table and its operand in ADDR
(R302, R303). -/

namespace Sys2Proof.Laws.FieldsOfWord

/-- The OP and ADDR fields of the instruction's word. -/
def Statement : Instr → Prop
  | .rd addr => opField (encode (.rd addr)) = 0b00 ∧ addrField (encode (.rd addr)) = addr
  | .ifetch addr => opField (encode (.ifetch addr)) = 0b01 ∧ addrField (encode (.ifetch addr)) = addr
  | .dec => opField (encode .dec) = 0b10 ∧ addrField (encode .dec) = 0

theorem rd (addr : Address) : Statement (.rd addr) := ⟨opField_encode_rd addr, addrField_encode_rd addr⟩

theorem ifetch (addr : Address) : Statement (.ifetch addr) :=
  ⟨opField_encode_ifetch addr, addrField_encode_ifetch addr⟩

theorem dec : Statement .dec := by unfold Statement; decide

end Sys2Proof.Laws.FieldsOfWord
end

