-- ==== Sys2Proof/Laws/Permutation.lean ====
section
/-! SUPPORT. The 24 tuples, and the table that a checked list stands for. -/

namespace Sys2Proof.Machine

/-- The tuples that pass the second check of R403 are the 24 of `allTuples`. -/
theorem tupleOk_iff_mem (t : PermTuple) : tupleOk t = true ↔ t ∈ Config.allTuples.toList := by
  constructor
  · intro h
    obtain ⟨a, b, c, d⟩ := t
    simp only [tupleOk, tupleElements, List.all_cons, List.all_nil, Bool.and_true, Bool.and_eq_true,
      List.contains_iff_mem, List.mem_cons, List.not_mem_nil, or_false] at h
    obtain ⟨h0, h2, h4, h6⟩ := h
    rcases h0 with rfl | rfl | rfl | rfl <;> rcases h2 with h | h | h | h <;> (try cases h) <;>
      rcases h4 with h | h | h | h <;> (try cases h) <;> rcases h6 with h | h | h | h <;> (try cases h) <;> decide
  · have all : ∀ t ∈ Config.allTuples.toList, tupleOk t = true := by decide
    exact all t

theorem permCheck_iff (T : List PermTuple) :
    permCheck T = true ↔ T.length = 24 ∧ (∀ t ∈ T, tupleOk t = true) ∧ T.Nodup := by
  simp [permCheck, List.all_eq_true, and_assoc]

/-- The vector of a list of 24 tuples holds the same tuples. -/
theorem permVector_toList {T : List PermTuple} (h : T.length = 24) : (permVector T).toList = T := by
  apply List.ext_getElem
  · simp [h]
  · intro i h1 h2
    simp [permVector, List.getD_eq_getElem?_getD, h2]

theorem perm_permVector {T : List PermTuple} (h : T.length = 24) (s : Fin 24) :
    perm (permVector T) s = T[s.val]'(by rw [h]; exact s.isLt) := by
  have : s.val < T.length := by rw [h]; exact s.isLt
  simp [perm, permVector, List.getD_eq_getElem?_getD, this]

/-- `bitOf` is the bit in place 0 and nothing else. -/
theorem bitOf_getLsbD (x : Byte) (p i : Nat) : (bitOf x p).getLsbD i = (decide (i = 0) && x.getLsbD p) := by
  unfold bitOf
  rw [BitVec.getLsbD_and, BitVec.getLsbD_ushiftRight]
  cases i <;> simp

/-- A row followed by the bit of a path, as a number. -/
theorem row_append_toNat (r : BitVec 6) (b : BitVec 1) : (r ++ b).toNat = 2 * r.toNat + b.toNat := by
  have all : ∀ (r : BitVec 6) (b : BitVec 1), (r ++ b).toNat = 2 * r.toNat + b.toNat := by decide
  exact all r b

end Sys2Proof.Machine
end

