-- ==== Sys2Proof/Laws/Step.lean ====
section
/-! SUPPORT. What a request and a step can do, said once. -/

namespace Sys2Proof.Machine

/-- Everything a read request can do. -/
theorem serveRead_cases {v : View} {a : Address} {s t : State} (h : serveRead v a s = .next t) :
    (s.phase = .fault ∧ t = s) ∨
    ((s.phase = .idle ∨ s.phase = .busy) ∧ t = raiseFault .readBeforeDone s) ∨
    (s.phase = .done ∧ ∃ b, memRead v a s = some b ∧ t = respond b s) := by
  unfold serveRead at h
  cases hp : s.phase <;> simp only [hp] at h
  · exact .inr (.inl ⟨.inl rfl, (Host.Outcome.next.inj h).symm⟩)
  · exact .inr (.inl ⟨.inr rfl, (Host.Outcome.next.inj h).symm⟩)
  · cases hb : memRead v a s with
    | none => simp [hb] at h
    | some b =>
      rw [hb] at h
      exact .inr (.inr ⟨rfl, b, rfl, (Host.Outcome.next.inj h).symm⟩)
  · exact .inl ⟨rfl, (Host.Outcome.next.inj h).symm⟩

/-- Everything DEC can do. -/
theorem execDec_cases {s t : State} (h : execDec s = .next t) :
    (s.phase = .fault ∧ t = s) ∨
    (s.phase = .idle ∧ t = { s with cnt := 0, phase := .busy }) ∨
    ((s.phase = .busy ∨ s.phase = .done) ∧ t = raiseFault .decodeRepeated s) := by
  unfold execDec at h
  cases hp : s.phase <;> simp only [hp] at h
  · exact .inr (.inl ⟨rfl, (Host.Outcome.next.inj h).symm⟩)
  · exact .inr (.inr ⟨.inl rfl, (Host.Outcome.next.inj h).symm⟩)
  · exact .inr (.inr ⟨.inr rfl, (Host.Outcome.next.inj h).symm⟩)
  · exact .inl ⟨rfl, (Host.Outcome.next.inj h).symm⟩

/-- Everything a reserved word can do. -/
theorem serveReserved_cases {e : DecodeError} {s t : State} (h : serveReserved e s = .next t) :
    (s.phase = .fault ∧ t = s) ∨ (s.phase ≠ .fault ∧ t = raiseFault .reservedRequest s) := by
  unfold serveReserved at h
  cases hp : s.phase <;> simp only [hp] at h <;> simp [← Host.Outcome.next.inj h]

/-- Everything a request word can do, decoded and served. -/
inductive Served (w : ReqWord) (s : State) : State → Prop where
  | ignored (hp : s.phase = .fault) : Served w s s
  | readEarly (hi : (∃ a, decode w = .ok (.rd a)) ∨ ∃ a, decode w = .ok (.ifetch a))
      (hp : s.phase = .idle ∨ s.phase = .busy) : Served w s (raiseFault .readBeforeDone s)
  | dataByte (a : Address) (hi : decode w = .ok (.rd a)) (hp : s.phase = .done) : Served w s (respond (romByte s a) s)
  | opcodeByte (a : Address) (b : Byte) (hi : decode w = .ok (.ifetch a)) (hp : s.phase = .done)
      (hb : memRead .opv a s = some b) : Served w s (respond b s)
  | started (hi : decode w = .ok .dec) (hp : s.phase = .idle) : Served w s { s with cnt := 0, phase := .busy }
  | repeated (hi : decode w = .ok .dec) (hp : s.phase = .busy ∨ s.phase = .done) : Served w s (raiseFault .decodeRepeated s)
  | reserved (e : DecodeError) (hi : decode w = .error e) (hp : s.phase ≠ .fault) : Served w s (raiseFault .reservedRequest s)

/-- The outcome of a presented word. -/
def serveWord (w : ReqWord) (s : State) : Host.Outcome State Fault Refusal :=
  match decode w with
  | .ok i => exec i s
  | .error e => serveReserved e s

theorem serveWord_served {w : ReqWord} {s t : State} (h : serveWord w s = .next t) : Served w s t := by
  unfold serveWord at h
  cases hd : decode w with
  | error e =>
    rw [hd] at h
    rcases serveReserved_cases h with ⟨hp, rfl⟩ | ⟨hp, rfl⟩
    · exact .ignored hp
    · exact .reserved e hd hp
  | ok i =>
    rw [hd] at h
    cases i with
    | rd a =>
      rcases serveRead_cases (v := .romv) h with ⟨hp, rfl⟩ | ⟨hp, rfl⟩ | ⟨hp, b, hb, rfl⟩
      · exact .ignored hp
      · exact .readEarly (.inl ⟨a, hd⟩) hp
      · rw [memRead_romv] at hb
        rw [← Option.some.inj hb]
        exact .dataByte a hd hp
    | ifetch a =>
      rcases serveRead_cases (v := .opv) h with ⟨hp, rfl⟩ | ⟨hp, rfl⟩ | ⟨hp, b, hb, rfl⟩
      · exact .ignored hp
      · exact .readEarly (.inr ⟨a, hd⟩) hp
      · exact .opcodeByte a b hd hp hb
    | dec =>
      rcases execDec_cases h with ⟨hp, rfl⟩ | ⟨hp, rfl⟩ | ⟨hp, rfl⟩
      · exact .ignored hp
      · exact .started hd hp
      · exact .repeated hd hp

/-- Everything a step can do: serve the presented word, let ENGINE move, or change nothing but the list of turns. -/
theorem step_cases {s t : State} (h : step s = .next t) :
    (∃ who w later, s.pending = .request who w :: later ∧ Served w { s with pending := later } t) ∨
    (s.phase = .busy ∧ ∃ p, (s.pending = p ∨ s.pending = .engine :: p) ∧ t = decodeStep { s with pending := p } ∧
      ∀ who w later, s.pending ≠ .request who w :: later) ∨
    (s.phase ≠ .busy ∧ (∃ p, t = { s with pending := p }) ∧ ∀ who w later, s.pending ≠ .request who w :: later) := by
  have engineCase : ∀ p, (s.pending = p ∨ s.pending = .engine :: p) → (∀ who w later, s.pending ≠ .request who w :: later) →
      t = engineTurn { s with pending := p } →
      (s.phase = .busy ∧ ∃ p, (s.pending = p ∨ s.pending = .engine :: p) ∧ t = decodeStep { s with pending := p } ∧
        ∀ who w later, s.pending ≠ .request who w :: later) ∨
      (s.phase ≠ .busy ∧ (∃ p, t = { s with pending := p }) ∧ ∀ who w later, s.pending ≠ .request who w :: later) := by
    intro p hp hn ht
    by_cases hb : s.phase = .busy
    · rw [engineTurn_busy (s := { s with pending := p }) hb] at ht
      exact .inl ⟨hb, p, hp, ht, hn⟩
    · rw [engineTurn_not_busy (s := { s with pending := p }) hb] at ht
      exact .inr ⟨hb, ⟨p, ht⟩, hn⟩
  unfold step nextMove at h
  cases hq : s.pending with
  | nil =>
    simp only [hq] at h
    refine .inr ?_
    rw [hq] at engineCase
    exact engineCase [] (.inl rfl) (by simp) ((Host.Outcome.next.inj h).symm.trans (by rw [← hq]))
  | cons turn later =>
    cases turn with
    | request who w =>
      simp only [hq] at h
      exact .inl ⟨who, w, later, rfl, serveWord_served h⟩
    | engine =>
      simp only [hq] at h
      refine .inr ?_
      rw [hq] at engineCase
      exact engineCase later (.inr rfl) (by simp) (Host.Outcome.next.inj h).symm
    | wait =>
      simp only [hq] at h
      refine .inr ?_
      rw [hq] at engineCase
      cases hp : s.phase with
      | busy =>
        simp only [hp] at h
        have := engineCase (.wait :: later) (.inl rfl) (by simp) ((Host.Outcome.next.inj h).symm.trans (by rw [← hq]))
        simpa [hp] using this
      | done =>
        simp only [hp] at h
        exact .inr ⟨by simp, ⟨later, (Host.Outcome.next.inj h).symm⟩, by simp⟩
      | idle =>
        simp only [hp] at h
        exact .inr ⟨by simp, ⟨s.pending, by rw [← hp]; exact (Host.Outcome.next.inj h).symm⟩, by simp⟩
      | fault =>
        simp only [hp] at h
        exact .inr ⟨by simp, ⟨s.pending, by rw [← hp]; exact (Host.Outcome.next.inj h).symm⟩, by simp⟩

end Sys2Proof.Machine
end

