-- ==== Sys2Proof/Laws/Run.lean ====
section
/-! SUPPORT. Runs: one step at a time, and the induction over them said once. -/

namespace Sys2Proof.Machine

@[simp] theorem run_zero (s : State) : run 0 s = .next s := rfl

/-- The first step of a run of any machine, by its outcome. -/
theorem coreRun_cases (M : Host.Core) (n : Nat) (s : M.State) :
    (∃ t, M.step s = .next t ∧ M.run (n + 1) s = M.run n t) ∨
    (∃ r, M.step s = .fault r ∧ M.run (n + 1) s = .fault r) ∨
    (∃ r, M.step s = .refused r ∧ M.run (n + 1) s = .refused r) := by
  cases h : M.step s with
  | next t => exact .inl ⟨t, rfl, by simp [Host.Core.run, h]⟩
  | fault r => exact .inr (.inl ⟨r, rfl, by simp [Host.Core.run, h]⟩)
  | refused r => exact .inr (.inr ⟨r, rfl, by simp [Host.Core.run, h]⟩)

theorem run_succ_of_step {s t : State} (h : step s = .next t) (n : Nat) : run (n + 1) s = run n t := by
  have hc : Sys2Proof.core.step s = .next t := h
  rcases coreRun_cases Sys2Proof.core n s with ⟨t', h', e⟩ | ⟨r, h', -⟩ | ⟨r, h', -⟩
  · rw [hc] at h'
    cases h'
    exact e
  · rw [hc] at h'; cases h'
  · rw [hc] at h'; cases h'

theorem step_of_run_succ {n : Nat} {s u : State} (h : run (n + 1) s = .next u) :
    ∃ t, step s = .next t ∧ run n t = .next u := by
  rcases coreRun_cases Sys2Proof.core n s with ⟨t, h', e⟩ | ⟨r, -, e⟩ | ⟨r, -, e⟩
  · exact ⟨t, h', e.symm.trans h⟩
  · cases e.symm.trans h
  · cases e.symm.trans h

/-- A run goes on from where its first part ends. -/
theorem run_add {m : Nat} {s t : State} (h : run m s = .next t) (n : Nat) : run (m + n) s = run n t := by
  induction m generalizing s with
  | zero =>
    rw [run_zero] at h
    rw [Host.Outcome.next.inj h, Nat.zero_add]
  | succ m ih =>
    obtain ⟨u, hu, hr⟩ := step_of_run_succ h
    rw [Nat.succ_add, run_succ_of_step hu, ih hr]

/-- What every step keeps holds at the end of every run. -/
theorem run_keeps {P : State → Prop} (keeps : ∀ s t, P s → step s = .next t → P t) {n : Nat} {s u : State}
    (h0 : P s) (h : run n s = .next u) : P u := by
  induction n generalizing s with
  | zero => rw [run_zero] at h; exact Host.Outcome.next.inj h ▸ h0
  | succ n ih =>
    obtain ⟨t, hst, hrun⟩ := step_of_run_succ h
    exact ih (keeps s t h0 hst) hrun

end Sys2Proof.Machine
end

