-- ==== Sys2Proof/Tests/Slice0.lean ====
section
/-! SUPPORT. Tests against the vectors of 95_test_vectors.md, the smoke test of `Line.wf`, and for every obligation with
hypotheses the states and operands that meet them (`test_witness_<Name>`). -/

namespace Sys2Proof.Tests

-- One theorem at a time: many kernel evaluations at once exhaust the thread stacks.
set_option Elab.async false

open Sys2Proof Sys2Proof.Machine

/-! ### Fixtures -/

/-- A table that passes PERMCHECK (W5: any order of the 24 distinct tuples). -/
def perms : List PermTuple := Config.allTuples.toList

/-- The selector of a tuple in that table. -/
def selOf (t : PermTuple) : Nat := perms.idxOf t

/-- A table of 128 entries, given by its exceptions. -/
def entries {α : Type} (dflt : α) (l : List (Nat × α)) : List α :=
  (List.range 128).map fun k => ((l.find? fun e => e.1 == k).map Prod.snd).getD dflt

/-- The test key K1 of 95_test_vectors.md. -/
def k1 : KeyConfig :=
  .plain
    (entries 0 [(0, 0x01), (1, 0x40), (2, 0x10), (3, 0x05), (68, 0x10), (69, 0x81), (126, 0xFF), (127, 0xAA)])
    (entries (selOf ⟨6, 4, 2, 0⟩)
      [(0, selOf ⟨0, 2, 4, 6⟩), (1, selOf ⟨4, 6, 2, 0⟩), (2, selOf ⟨2, 4, 6, 0⟩), (68, selOf ⟨2, 4, 6, 0⟩),
       (69, selOf ⟨0, 2, 4, 6⟩), (126, selOf ⟨6, 0, 2, 4⟩), (127, selOf ⟨0, 4, 2, 6⟩)])

/-- A PLAIN key with all entries alike. -/
def plainKey : KeyConfig := .plain (List.replicate 128 0x40) (List.replicate 128 0)

/-- A member of a shift family. -/
def shiftedKey (o : Nat) : KeyConfig := .shifted (List.replicate 131 0x40) (List.replicate 131 0) o

/-- A catalogue as R462 and R463 describe it. -/
def testCatalogue : List KeyConfig :=
  [shiftedKey 2, shiftedKey 0, shiftedKey 3, shiftedKey 1] ++ List.replicate 7 plainKey

/-- A launch over those parameters. -/
def launchWith (len : Nat) (variant : BitVec 4) (direct : KeyConfig) : Launch :=
  ⟨⟨[(0, 0xAA), (1, 0x3C)], len⟩, 0x8000, variant, direct, perms, testCatalogue⟩

/-- A launch of K1. -/
def launchK1 : Launch := launchWith 0x8000 15 k1

/-- A state with a few bytes in ROMV and nothing in OPV. -/
def stateIn (p : Phase) (c : Cause) (cnt : Address) (turns : List Turn) : State :=
  { romv := [(0, 0xAA), (2, 0xAA), (0x7FFF, 0x0F)], opv := [], cnt := cnt, src := 0, phase := p, cause := c, keycfg := 15,
    key := noKey, permTable := Config.allTuples, pending := turns, returned := [] }

/-- A state in DONE over an image of zeros. -/
def doneState : State :=
  { stateIn .done .none 0x7FFF [] with romv := [], opv := fullMemory fun _ => 0 }

/-- A request of HOST. -/
def ask (w : ReqWord) : Turn := .request .host w

/-- The state a step goes on to, and the state itself where it stops. -/
def after (s : State) : State :=
  match step s with
  | .next t => t
  | .fault _ => s
  | .refused _ => s

/-! ### WellFormed: one ill-formed line per check, refused -/

theorem test_wf_refuses_keycfg_16 : Line.wf (.keycfg 16) = false := by decide
theorem test_wf_refuses_image_address : Line.wf (.image [(0x7FFF, 1), (0x8000, 1)]) = false := by decide
theorem test_wf_refuses_rd_address : Line.wf (.rd 0x8000) = false := by decide
theorem test_wf_refuses_if_address : Line.wf (.ifetch 0x8000) = false := by decide
theorem test_wf_refuses_word : Line.wf (.word 0x20000) = false := by decide
theorem test_wf_takes_the_bounds : [Line.keycfg 15, .image [(0x7FFF, 1)], .rd 0x7FFF, .ifetch 0x7FFF, .word 0x1FFFF, .dec,
    .wait, .statusQuery, .key (.plain [] [])].all Line.wf = true := by decide

/-- An ill-formed program is not launched. -/
theorem test_ill_formed_program_is_refused : launchProgram launchK1 [.dec, .rd 0x8000] = none := rfl

/-! ### Decode: words written out from 30_encoding.md (R302, R303) and V-DECODE-REQ -/

theorem test_decode_rd : decode 0b00_111111111111111#17 = .ok (.rd 0x7FFF) := rfl
theorem test_decode_if : decode 0b01_100000000001000#17 = .ok (.ifetch 0x4008) := rfl
theorem test_decode_dec : decode 0b10_000000000000000#17 = .ok .dec := rfl
theorem test_decode_dec_with_address : decode 0b10_111111111111111#17 = .error .decWithAddress := rfl
theorem test_decode_reserved_op : decode 0b11_000000000000000#17 = .error .reservedOp := rfl
theorem test_encode : encode (.rd 0x4008) = 0x04008 ∧ encode (.ifetch 0x7FFF) = 0x0FFFF ∧ encode .dec = 0x10000 := by decide
theorem test_table_words : decodeTableWord 24 0x08001 = some (.ifetch 1) ∧ decodeTableWord 24 0x10001 = none ∧
    decodeTableWord 24 0x20000 = none := by decide

/-! ### The requests: V-REQ -/

theorem test_rd_in_idle : (after (stateIn .idle .none 0 [ask 0x00000])).status = 0x63 := by decide +kernel
theorem test_rd_in_done : (after (stateIn .done .none 0x7FFF [ask 0x07FFF])).returned = [0x0F] := by decide +kernel
theorem test_if_in_done :
    (after { stateIn .done .none 0x7FFF [ask 0x08001] with opv := [(0, 1), (1, 2)] }).returned = [2] := by decide +kernel
theorem test_if_in_fault :
    after (stateIn .fault .readBeforeDone 0 [ask 0x08000]) = stateIn .fault .readBeforeDone 0 [] := by decide +kernel
theorem test_dec_in_idle : (after (stateIn .idle .none 0 [ask 0x10000])).status = 0x01 := by decide +kernel
theorem test_dec_in_done : (after (stateIn .done .none 0x7FFF [ask 0x10000])).status = 0x73 := by decide +kernel
theorem test_reserved_in_busy : (after (stateIn .busy .none 7 [ask 0x10001])).status = 0x83 := by decide +kernel

/-! ### Rows, permutations and transforms: V-ROW, V-PERMUTE, V-INV, V-XFORM -/

theorem test_row : [0x0000, 0x0001, 0x0008, 0x0040, 0x0200, 0x1000, 0x4000, 0x2DB6, 0x5249, 0x3FFF, 0x6DB6, 0x4008].map row =
    [0, 1, 2, 4, 8, 16, 32, 0, 63, 31, 32, 34] := by decide

theorem test_permute : permute 0x10 ⟨2, 6, 4, 0⟩ = 0x04 ∧ permute 0xC3 ⟨0, 6, 2, 4⟩ = 0xD2 ∧ permute 0x96 ⟨6, 0, 2, 4⟩ = 0x87 ∧
    permute 0x1E ⟨2, 0, 4, 6⟩ = 0x4E := by decide

theorem test_inverse : inverseTuple ⟨2, 6, 4, 0⟩ = ⟨4, 2, 6, 0⟩ ∧ inverseTuple ⟨4, 2, 0, 6⟩ = ⟨0, 6, 4, 2⟩ ∧
    inverseTuple ⟨0, 6, 2, 4⟩ = ⟨4, 0, 2, 6⟩ := by decide

theorem test_entry_transform : entryTransform ⟨2, 6, 4, 0⟩ 0x11 0x3C = 0x7D ∧ entryInverse ⟨2, 6, 4, 0⟩ 0x11 0x7D = 0x3C ∧
    entryTransform ⟨4, 0, 6, 2⟩ 0x5A 0x96 = 0x99 ∧ entryTransform ⟨2, 4, 6, 0⟩ 0x04 0x7C = 0x78 := by decide

/-- V-XFORM's key-bound rows. -/
theorem test_xform_under_k1 :
    [(0xAA, 0x0000), (0x01, 0x0002), (0x3C, 0x0001), (0x80, 0x0003), (0xC3, 0x0008), (0x3C, 0x4008), (0x96, 0x5249),
      (0x0F, 0x7FFF)].map (fun p : Byte × Address =>
        (xformOp (permVector perms) (effectiveKey k1) p.1 p.2, xformData (permVector perms) (effectiveKey k1) p.1 p.2)) =
    [(0xAB, 0xEA), (0x41, 0x41), (0x68, 0x39), (0x90, 0x85), (0xC3, 0xC3), (0x68, 0xBD), (0x78, 0x3C), (0xE1, 0xE4)] := by
  decide +kernel

/-- W5: tables that PERMCHECK refuses. -/
theorem test_permcheck : permCheck perms = true ∧ permCheck perms.reverse = true ∧ permCheck (⟨6, 4, 2, 0⟩ :: perms.tail) = false ∧
    permCheck (⟨6, 4, 2, 1⟩ :: perms.tail) = false ∧ permCheck perms.tail = false := by decide +kernel

/-! ### The key catalogue: V-WINDOW, V-KEYCHECK, P3 -/

theorem test_window : (window (List.range 131) 3).head? = some 3 ∧ (window (List.range 131) 3).getLast? = some 130 ∧
    (window (List.range 131) 1)[127]? = some 128 := by decide +kernel

theorem test_keycheck_status :
    [(resetSequence launchK1).status,
     (resetSequence (launchWith 0x8000 12 k1)).status,
     (resetSequence (launchWith 0x7FFF 12 k1)).status,
     (resetSequence (launchWith 0x7FFF 15 k1)).status,
     (resetSequence (launchWith 0x8000 15 (.plain (List.replicate 127 0) (List.replicate 127 24)))).status,
     (resetSequence (launchWith 0x8000 15 (.shifted (List.replicate 131 0) (31 :: List.replicate 130 0) 4))).status,
     (resetSequence (launchWith 0x8000 15 (.shifted (List.replicate 131 0) (List.replicate 130 0 ++ [30]) 0))).status,
     (resetSequence (launchWith 0x8000 15 (.plain (List.replicate 128 0xFF) (List.replicate 128 23)))).status] =
    [0x00, 0x53, 0x53, 0x13, 0x23, 0x43, 0x33, 0x00] := by decide +kernel

/-- P3: the bytes of 0x0001 and 0x7FFF at the offsets 0 and 1. -/
theorem test_shift_family :
    let key (o : Nat) := effectiveKey (.shifted ((List.range 131).map fun i => BitVec.ofNat 8 i)
      ((List.range 131).map fun i => if i % 2 = 0 then selOf ⟨6, 4, 2, 0⟩ else selOf ⟨0, 2, 4, 6⟩) o)
    let T := permVector perms
    [xformOp T (key 0) 0x01 1, xformData T (key 0) 0x01 1, xformOp T (key 1) 0x01 1, xformData T (key 1) 0x01 1,
      xformOp T (key 0) 0xF0 0x7FFF, xformData T (key 0) 0xF0 0x7FFF, xformOp T (key 1) 0xF0 0x7FFF,
      xformData T (key 1) 0xF0 0x7FFF] = [0x03, 0x43, 0x43, 0x05, 0x8E, 0xDA, 0xDA, 0x70] := by decide +kernel

/-- The turns and launch parameters of a program's lines; `.word 0x18000` is presented as it is (P5). -/
theorem test_program_lines :
    [Line.keycfg 15, .dec, .wait, .ifetch 0x4008, .word 0x18000, .statusQuery].filterMap lineTurn =
      [.request .host 0x10000, .wait, .request .cpu 0x0C008, .request .host 0x18000] ∧
    (applyDirective (applyDirective launchK1 (.image [(5, 1)])) (.keycfg 12)).variant = 12 := by decide +kernel

/-- R312: a byte that the program lists is in the image, and every other byte is 0x00, whatever image was there before. -/
theorem test_program_image :
    let E := (programLaunch launchK1 [.image [(5, 1)], .dec, .image [(6, 2), (5, 3)]]).image
    [imageByte E 0, imageByte E 5, imageByte E 6, imageByte E 0x7FFF] = [0x00, 0x03, 0x02, 0x00] ∧ E.length = 0x8000 := by
  decide +kernel

/-! ### Witnesses: states and operands that meet the hypotheses of the statements -/

/-- The row of the encoding test: each clause at the bounds of its range. -/
theorem test_witness_DecoderFollowsMatchAndMask :
    (0x00000#17 &&& 0x18000 = 0x00000 ∧ 0x07FFF#17 &&& 0x18000 = 0x00000) ∧
    (0x08000#17 &&& 0x18000 = 0x08000 ∧ 0x0FFFF#17 &&& 0x18000 = 0x08000) ∧ 0x10000#17 &&& 0x1FFFF = 0x10000 ∧
    [0x10001#17, 0x17FFF#17, 0x18000#17, 0x1FFFF#17].all (fun w =>
      decide (w &&& 0x18000 ≠ 0x00000 ∧ w &&& 0x18000 ≠ 0x08000 ∧ w &&& 0x1FFFF ≠ 0x10000)) = true := by decide

theorem test_witness_StepServesThePresentedRequest :
    (stateIn .done .none 0x7FFF [ask 0x08001]).pending = .request .host 0x08001 :: [] ∧ decode 0x08001 = .ok (.ifetch 1) ∧
    decodeTableWord 24 0x1FFFF = none ∧ decodeTableWord 24 0x10000 = some .dec := ⟨rfl, rfl, rfl, rfl⟩

theorem test_witness_ReservedWordRaisesReservedRequest :
    (stateIn .busy .none 3 [ask 0x18000]).pending = .request .host 0x18000 :: [] ∧
    [0x10001#17, 0x17FFF#17, 0x18000#17, 0x1FFFF#17].all (fun w => opcodeTable.all fun r => !r.matchesWord w) = true ∧
    (stateIn .busy .none 3 [ask 0x18000]).phase ≠ .fault ∧
    (stateIn .fault .decodeRepeated 3 [ask 0x18000]).phase = .fault := by decide +kernel

theorem test_witness_OtherTurnsMoveEngineOnly :
    (stateIn .busy .none 0 []).pending = [] ∧ (stateIn .idle .none 0 [.engine, .wait]).pending = .engine :: [.wait] ∧
    ((stateIn .busy .none 0x7FFF [.wait]).pending = .wait :: [] ∧ (stateIn .busy .none 0x7FFF [.wait]).phase = .busy) ∧
    ((stateIn .done .none 0x7FFF [.wait]).pending = .wait :: [] ∧ (stateIn .done .none 0x7FFF [.wait]).phase = .done) ∧
    ((stateIn .idle .none 0 [.wait]).pending = .wait :: [] ∧ (stateIn .idle .none 0 [.wait]).phase = .idle) ∧
    (engineTurn (stateIn .fault .readBeforeDone 0 [])).phase = .fault := by decide +kernel

/-- Every byte of the all-zero image is decoded to zero by the key with zero entries. -/
theorem xform_noKey_zero (a : Address) (p : Path) : xform Config.allTuples noKey 0 a p = 0 := by
  unfold xform
  simp only [noKey, Fin.getElem_fin, tabulate_get]
  decide

theorem doneState_opByte (a : Address) : memRead .opv a doneState = some 0 := by
  rw [memRead_opv]
  exact memLookup_fullMemory _ a

theorem doneState_decodesImage : doneState.decodesImage fun _ => 0 :=
  fun a => ⟨(xform_noKey_zero a .data).symm, (doneState_opByte a).trans (congrArg some (xform_noKey_zero a .opcode).symm)⟩

theorem perms_ok : permCheck Config.allTuples.toList = true := by decide +kernel

theorem doneState_inv : doneState.Inv where
  romvCanonical := rfl
  opvCanonical := fullMemory_wf_opv _
  permTableValid := perms_ok
  causeInFault := by decide +kernel
  progress := ⟨rfl, fun a => by rw [doneState_opByte]; rfl⟩

/-- The four phases in which RD, IF and DEC are stated, DONE with its invariant, its byte and the image it decodes. -/
theorem test_witness_RdServesTheDataByte_IfServesTheOpcodeByte :
    doneState.phase = .done ∧ doneState.Inv ∧ (∀ a, memRead .opv a doneState = some 0) ∧
    (doneState.decodesImage fun _ => 0) ∧
    (stateIn .idle .none 0 []).phase = .idle ∧ (stateIn .busy .none 0 []).phase = .busy ∧
    (stateIn .fault .readBeforeDone 0 []).phase = .fault :=
  ⟨rfl, doneState_inv, doneState_opByte, doneState_decodesImage, rfl, rfl, rfl⟩

theorem test_witness_IfOfAnUnwrittenByteStops :
    (stateIn .done .none 0x7FFF []).phase = .done ∧ memRead .opv 0x7FFF (stateIn .done .none 0x7FFF []) = none := by
  decide +kernel

theorem test_witness_DecStartsDecoding :
    (stateIn .idle .none 0 []).phase = .idle ∧ (stateIn .idle .none 0 []).cause = .none ∧
    (stateIn .busy .none 0 []).phase = .busy ∧ (stateIn .done .none 0x7FFF []).phase = .done ∧
    (stateIn .fault .readBeforeDone 0 []).phase = .fault := ⟨rfl, rfl, rfl, rfl, rfl⟩

/-- Requests that go on: DEC in IDLE, RD in DONE, IF in FAULT; and a step that is no RD or IF: a reserved word in DONE. -/
theorem test_witness_RequestsLeaveTheRestUnchanged_OneBytePerAdmittedRead :
    (∃ t, exec .dec (stateIn .idle .none 0 []) = .next t ∧ t.phase ≠ .fault) ∧
    (∃ t, exec (.rd 0x7FFF) doneState = .next t ∧ t.phase ≠ .fault ∧ Instr.rd 0x7FFF ≠ .dec ∧ doneState.phase = .done) ∧
    (∃ t, exec (.ifetch 0) (stateIn .fault .readBeforeDone 0 []) = .next t) ∧
    ∃ t, step (stateIn .done .none 0x7FFF [ask 0x18000]) = .next t ∧
      ¬∃ who w later a, (stateIn .done .none 0x7FFF [ask 0x18000]).pending = .request who w :: later ∧
        (stateIn .done .none 0x7FFF [ask 0x18000]).phase = .done ∧
        (decode w = .ok (.rd a) ∨ decode w = .ok (.ifetch a)) := by
  refine ⟨⟨_, rfl, by decide⟩, ⟨_, rfl, by decide, by decide, rfl⟩, ⟨_, rfl⟩, _, rfl, ?_⟩
  rintro ⟨who, w, later, a, hq, -, hd⟩
  have hw : decode 0x18000 = .error .reservedOp := rfl
  obtain ⟨⟨-, rfl⟩, -⟩ := List.cons.inj hq |>.imp_left Turn.request.inj
  rw [hw] at hd
  rcases hd with h | h <;> cases h

/-- A step that raises each cause, and one that is made in BUSY. -/
theorem test_witness_RequestFaultsAreTheThreeCases :
    (∃ t, step (stateIn .idle .none 0 [ask 0x00000]) = .next t ∧ t.phase = .fault ∧ t.cause = .readBeforeDone) ∧
    (∃ t, step (stateIn .busy .none 9 [ask 0x10000]) = .next t ∧ t.phase = .fault ∧ t.cause = .decodeRepeated) ∧
    (∃ t, step (stateIn .done .none 0x7FFF [ask 0x18000]) = .next t ∧ t.phase = .fault ∧ t.cause = .reservedRequest) ∧
    decode 0x00000 = .ok (.rd 0) ∧ decode 0x10000 = .ok .dec ∧ decode 0x18000 = .error .reservedOp :=
  ⟨⟨_, rfl, rfl, rfl⟩, ⟨_, rfl, rfl, rfl⟩, ⟨_, rfl, rfl, rfl⟩, rfl, rfl, rfl⟩

theorem test_witness_FaultIsSticky : (stateIn .fault .readBeforeDone 0 [ask 0x10000, .wait]).phase = .fault := rfl

/-- A launch that passes the configuration check, and one that fails it. -/
theorem test_witness_launches :
    (∃ t, launch launchK1 = .next t) ∧ keycheck launchK1 = none ∧
    (∃ t, launch (launchWith 0x8000 11 k1) = .next t) ∧ keycheck (launchWith 0x8000 11 k1) = some .cfgVariantRange := by
  have accepted : ∀ n v k, launch (launchWith n v k) = .next (resetSequence (launchWith n v k)) := by
    intro n v k
    have hp : permCheck (launchWith n v k).permTable = true := perms_ok
    have hc : catalogueOk (launchWith n v k).catalogue = true := show catalogueOk testCatalogue = true by decide +kernel
    unfold launch
    rw [if_pos hp, if_pos hc]
  exact ⟨⟨_, accepted _ _ _⟩, by decide +kernel, ⟨_, accepted _ _ _⟩, by decide +kernel⟩

/-- The kinds of step: DEC in IDLE, ENGINE at the first and at the last address, a request that faults, a turn that changes nothing. -/
theorem test_witness_PhaseChangesOnlyAsStated_CntMovesOnlyAsStated :
    (after (stateIn .idle .none 0 [ask 0x10000])).phase = .busy ∧ (ask 0x10000) = .request .host (encode .dec) ∧
    ((after (stateIn .busy .none 0x7FFE [])).phase = .busy ∧ (after (stateIn .busy .none 0x7FFE [])).cnt = 0x7FFF) ∧
    ((after (stateIn .busy .none 0x7FFF [.wait])).phase = .done ∧ (after (stateIn .busy .none 0x7FFF [.wait])).cnt = 0x7FFF) ∧
    ((after (stateIn .busy .none 5 [ask 0])).phase = .fault ∧ (after (stateIn .busy .none 5 [ask 0])).cnt = 5) ∧
    (after (stateIn .done .none 0x7FFF [.engine])).phase = .done := by decide +kernel

theorem test_witness_CauseIsWrittenByFaultsOnly_ConfigurationNeverChanges :
    (∃ t, step (stateIn .busy .none 5 [ask 0]) = .next t ∧ t.cause ≠ (stateIn .busy .none 5 [ask 0]).cause) ∧
    (∃ t, run 1 (stateIn .idle .none 0 [ask 0x10000]) = .next t) ∧
    ∃ L t u, launch L = .next t ∧ run 0 { t with pending := [.wait] } = .next u :=
  ⟨⟨_, rfl, by decide⟩, ⟨_, rfl⟩, let ⟨t, h⟩ := test_witness_launches.1; ⟨launchK1, t, _, h, rfl⟩⟩

/-- ENGINE writes both views at CNT: here the byte 0x0F is read at 0x7FFF, and OPV held nothing. -/
theorem test_witness_OnlyEngineInBusyWritesTheViews :
    ∃ t, step (stateIn .busy .none 0x7FFF []) = .next t ∧
      memRead .opv 0x7FFF t ≠ memRead .opv 0x7FFF (stateIn .busy .none 0x7FFF []) := ⟨_, rfl, by decide +kernel⟩

theorem test_witness_StatusLayout :
    ((stateIn .fault .readBeforeDone 0 []).phase = .fault ∧ (stateIn .fault .readBeforeDone 0 []).cause = .readBeforeDone) ∧
    (doneState.phase = .done ∧ doneState.cause = .none) := ⟨⟨rfl, rfl⟩, rfl, rfl⟩

theorem test_witness_WriteSetsTheNamedByteOnly :
    ¬(View.opv = View.romv ∧ (0 : Address) = 0) ∧ ¬(View.romv = View.romv ∧ (0x7FFF : Address) = 0) := by decide

theorem test_witness_DecodeStepDecodesOneAddress :
    (stateIn .busy .none 0x7FFF []).phase = .busy ∧ (stateIn .busy .none 0x7FFF []).cnt = 0x7FFF ∧
    (stateIn .busy .none 0 []).phase = .busy ∧ (stateIn .busy .none 0 []).cnt ≠ 0x7FFF := by decide +kernel

/-- IDLE with DEC, with DEC and a wait, and BUSY at the first address with canonical memories. -/
theorem test_witness_DecodePostcondition_DecThenWaitIsFinal_DecodeVisitsEachAddressOnce_AtomicDecodeIsTheStepwiseOne :
    (∃ t, (stateIn .idle .none 0 []).phase = .idle ∧ exec .dec (stateIn .idle .none 0 []) = .next t) ∧
    (stateIn .idle .none 0 [ask 0x10000, .wait]).pending = [.request .host 0x10000, .wait] ∧
    Memory.wf .romv (stateIn .busy .none 0 []).romv = true ∧ Memory.wf .opv (stateIn .busy .none 0 []).opv = true ∧
    (stateIn .busy .none 0 []).phase = .busy ∧ (stateIn .busy .none 0 []).cnt = 0 :=
  ⟨⟨_, rfl, rfl⟩, rfl, by decide, by decide, rfl, rfl⟩

/-- Two addresses of one row that hold the same byte. -/
theorem test_witness_OutputsDependOnByteRowAndKey :
    row 0x0000 = row 0x0002 ∧
    romByte (stateIn .busy .none 0 []) 0x0000 = romByte (stateIn .busy .none 0 [.engine]) 0x0002 ∧
    (stateIn .busy .none 0 []).phase = .busy ∧ (stateIn .busy .none 0 []).cnt = 0 ∧
    (stateIn .busy .none 0 []).key = (stateIn .busy .none 0 [.engine]).key := by decide +kernel

/-- A state with the invariant that steps, in DONE and in BUSY at the first address. -/
theorem test_witness_StepKeepsTheInvariant :
    (doneState.Inv ∧ ∃ t, step doneState = .next t) ∧
    ((stateIn .busy .none 0 []).Inv ∧ ∃ t, step (stateIn .busy .none 0 []) = .next t) := by
  refine ⟨⟨doneState_inv, _, rfl⟩, ⟨by decide, by decide, perms_ok, by decide +kernel, fun a => ?_⟩, _, rfl⟩
  show (none : Option Byte).isSome = true ↔ a < 0
  simp

/-- The image relation in DONE, and in BUSY at the first address, where ROMV is the image. -/
theorem test_witness_StepKeepsTheImageRelation :
    ((doneState.decodesImage fun _ => 0) ∧ ∃ t, step doneState = .next t) ∧
    ((stateIn .busy .none 0 []).decodesImage (romByte (stateIn .busy .none 0 [])) ∧
      ∃ t, step (stateIn .busy .none 0 []) = .next t) :=
  ⟨⟨doneState_decodesImage, _, rfl⟩, fun a => ⟨fun h => absurd (show a < 0 from h) (by simp), fun _ => rfl⟩, _, rfl⟩

/-- With nothing pending, BUSY at address `0x7FFF - k` is in DONE after `k + 1` steps. -/
theorem busy_reaches_done (k : Nat) : ∀ s : State, s.phase = .busy → s.pending = [] → s.cnt.toNat + k = 0x7FFF →
    ∃ u, run (k + 1) s = .next u ∧ u.phase = .done := by
  have one : ∀ s : State, s.phase = .busy → s.pending = [] → step s = .next (decodeStep s) := by
    intro s hp hq
    unfold step nextMove
    rw [hq]
    show Host.Outcome.next (engineTurn s) = _
    rw [engineTurn_busy hp]
  induction k with
  | zero =>
    intro s hp hq hc
    refine ⟨decodeStep s, ?_, ?_⟩
    · rw [run_succ_of_step (one s hp hq), run_zero]
    · rw [decodeStep_phase, if_pos (BitVec.eq_of_toNat_eq (by simpa using hc))]
  | succ k ih =>
    intro s hp hq hc
    have hne : s.cnt ≠ Config.lastAddress := fun e => by rw [e, Config.lastAddress_toNat] at hc; omega
    obtain ⟨u, hu, hd⟩ := ih (decodeStep s) (by rw [decodeStep_phase, if_neg hne, hp]) (by simp [hq]) (by
      rw [decodeStep_cnt, if_neg hne]
      have : (s.cnt + 1).toNat = s.cnt.toNat + 1 := by simp only [BitVec.toNat_add]; simp; omega
      omega)
    exact ⟨u, by rw [run_succ_of_step (one s hp hq), hu], hd⟩

theorem busy_run_ends (s : State) (hp : s.phase = .busy) (hq : s.pending = []) :
    ∃ n u, run n s = .next u ∧ u.phase = .done :=
  ⟨_, busy_reaches_done (0x7FFF - s.cnt.toNat) s hp hq (by have := s.cnt.isLt; omega)⟩

/-- A launch, an order of turns and a run of it to DONE. -/
theorem test_witness_ReadsInDoneDecodeTheImage :
    ∃ L t u, ∃ turns : List Turn, ∃ n, launch L = .next t ∧ run n { t with pending := turns } = .next u ∧ u.phase = .done := by
  obtain ⟨t, ht⟩ := test_witness_launches.1
  have hi : t.phase = .idle := by
    have h := ht
    unfold launch at h
    split at h
    · split at h
      · rw [← Host.Outcome.next.inj h]; decide +kernel
      · cases h
    · cases h
  have h1 : step { t with pending := [ask 0x10000] } = .next { t with pending := [], cnt := 0, phase := .busy } := by
    show execDec { t with pending := [] } = _
    unfold execDec
    simp only [hi]
  obtain ⟨n, u, hu, hd⟩ := busy_run_ends { t with pending := [], cnt := 0, phase := .busy } rfl rfl
  exact ⟨launchK1, t, u, [ask 0x10000], n + 1, ht, (run_succ_of_step h1 _).trans hu, hd⟩

/-- Accepted parameters, and the outcome of the check for each kind of variant and each failing check, at the bounds. -/
theorem test_witness_ResetSequence_KeyResolution_KeycheckFirstFailureWins :
    permCheck launchK1.permTable = true ∧ catalogueOk launchK1.catalogue = true ∧
    ((0x7FFF : Address).toNat < launchK1.image.length) ∧
    [keycheck (launchWith 0x8000 0 k1), keycheck (launchWith 0x8000 10 k1), keycheck (launchWith 0x8000 11 k1),
      keycheck (launchWith 0x8000 14 k1), keycheck (launchWith 0x7FFF 10 k1), keycheck (launchWith 0x8001 15 k1),
      keycheck (launchWith 0x8000 15 (.plain (List.replicate 128 0) (List.replicate 129 0))),
      keycheck (launchWith 0x8000 15 (.plain (List.replicate 128 0) (List.replicate 127 0 ++ [24]))),
      keycheck (launchWith 0x8000 15 (.plain (List.replicate 128 0) (List.replicate 127 0 ++ [23]))),
      keycheck (launchWith 0x8000 15 (.shifted (List.replicate 130 0) (List.replicate 131 0) 0)),
      keycheck (launchWith 0x8000 15 (shiftedKey 4)),
      keycheck (launchWith 0x8000 15 (.shifted (List.replicate 131 0) (List.replicate 130 0 ++ [24]) 3)),
      keycheck (launchWith 0x8000 15 (shiftedKey 3))] =
    [none, none, some .cfgVariantRange, some .cfgVariantRange, some .cfgBufferSize, some .cfgBufferSize, some .cfgTableLength,
      some .cfgSelectorRange, none, some .cfgTableLength, some .cfgOffsetRange, some .cfgSelectorRange, none] := by
  decide +kernel

/-- A master table, its offsets at their bounds, and the well-formed keys of either form. -/
theorem test_witness_windows_and_effective_keys :
    (List.range 131).length = 131 ∧ (3 ≤ 3 ∧ 3 + 127 < (List.range 131).length) ∧ (2 ≤ 2 ∧ 126 ≤ 126) ∧
    keyWellFormed k1 = true ∧ keyWellFormed (shiftedKey 0) = true ∧ keyWellFormed (shiftedKey 2) = true ∧
    keyWellFormed (shiftedKey 3) = true ∧ (63 ≤ 63 ∧ 62 ≤ 62) := by decide +kernel

theorem test_witness_XorValuesAreNotChecked :
    (List.replicate 128 (0xFF : Byte)).length = (List.replicate 128 (0x00 : Byte)).length ∧
    (List.replicate 131 (0xFF : Byte)).length = (List.replicate 131 (0x00 : Byte)).length := by simp only [List.length_replicate, and_self]

theorem test_witness_PermcheckRefusesTheLaunch_PermTableListsEachPermutationOnce :
    permCheck { launchK1 with permTable := perms.tail }.permTable = false ∧ permCheck perms = true := by decide +kernel

theorem test_witness_PermuteMovesTheEvenBits_PermuteLaws_InverseTupleUndoesPermute_TransformInverseAndInvolution :
    tupleOk ⟨4, 0, 6, 2⟩ = true ∧ tupleOk ⟨0, 2, 4, 6⟩ = true ∧ (0xAA#8 &&& 0x55 = 0x00 ∧ 0xFF#8 &&& 0x55 = 0x55) ∧
    (tupleElements ⟨4, 0, 6, 2⟩)[0]? = [6, 4, 2, 0][1]? ∧
    (inverseTuple ⟨2, 4, 6, 0⟩ = ⟨2, 4, 6, 0⟩ ∧ permute 0x10 ⟨2, 4, 6, 0⟩ = 0x10) ∧ inverseTuple ⟨4, 0, 6, 2⟩ ≠ ⟨4, 0, 6, 2⟩ := by
  decide

theorem test_witness_RowIgnoresTheOtherBits : 0x2DB6#15 &&& 0x5249 = 0 ∧ 0x0000#15 &&& 0x5249 = 0 := by decide

/-- K1 at row 2, whose entries are the identity and 0x00, and at row 63, the last one. -/
theorem test_witness_PathTransforms :
    2 * (row 0x0008).toNat + 1 < 128 ∧ 2 * (row 0x7FFF).toNat + 1 = 127 ∧
    perm (permVector perms) ((effectiveKey k1).selt[4]) = ⟨6, 4, 2, 0⟩ ∧ (effectiveKey k1).xort[4] = 0 ∧
    perm (permVector perms) ((effectiveKey k1).selt[5]) = ⟨6, 4, 2, 0⟩ ∧ (effectiveKey k1).xort[5] = 0 ∧
    tupleOk (perm (permVector perms) ((effectiveKey k1).selt[126])) = true ∧
    tupleOk (perm (permVector perms) ((effectiveKey k1).selt[127])) = true := by decide +kernel

theorem test_witness_WritingBeforeReadingIsWrong :
    permCheck perms = true ∧ xformData (permVector perms) (effectiveKey k1) 0xAA 0x0000 ≠ 0xAA := by decide +kernel

theorem test_witness_SelectorFieldHoldsZeroTo23 :
    24 ≤ (24 : BitVec 5).toNat ∧ 24 ≤ (31 : BitVec 5).toNat ∧
    keycheck (launchWith 0x8000 15 (.plain (List.replicate 128 0) (31 :: List.replicate 127 0))) = some .cfgSelectorRange := by
  decide +kernel

end Sys2Proof.Tests
end

/-! PROOFS. The registers of 10_state.md: PHASE (R111), CNT (R104) and CAUSE (R109). -/

namespace Sys2Proof.Machine

/-! ### The word of DEC -/

theorem decode_encode_dec : decode (encode .dec) = .ok .dec := by decide

/-- DEC has one word (R302, R303). -/
theorem eq_encode_dec_of_decode {w : ReqWord} (h : decode w = .ok .dec) : w = encode .dec := by
  obtain ⟨decOp, decAddr⟩ := Laws.FieldsOfWord.dec
  unfold decode at h
  split at h
  · cases h
  · split at h
    · cases h
    · split at h
      · next hop =>
        split at h
        · next haddr => exact reqWord_eq_of_fields (hop.trans decOp.symm) (haddr.trans decAddr.symm)
        · cases h
      · cases h

/-! ### What a served word does to the state -/

/-- The four effects of a served word: none, one byte returned, DECODE started, or a fault raised outside FAULT. -/
theorem Served.effect {w : ReqWord} {s t : State} (h : Served w s t) :
    t = s ∨ (∃ b, t = respond b s) ∨
    (s.phase = .idle ∧ w = encode .dec ∧ t = { s with cnt := 0, phase := .busy }) ∨
    (s.phase ≠ .fault ∧ ∃ c, c ≠ .none ∧ t = raiseFault c s) := by
  cases h with
  | ignored _ => exact .inl rfl
  | dataByte _ _ _ => exact .inr (.inl ⟨_, rfl⟩)
  | opcodeByte _ b _ _ _ => exact .inr (.inl ⟨b, rfl⟩)
  | started hi hp => exact .inr (.inr (.inl ⟨hp, eq_encode_dec_of_decode hi, rfl⟩))
  | readEarly _ hp => exact .inr (.inr (.inr ⟨by rcases hp with hp | hp <;> simp [hp], _, by simp, rfl⟩))
  | repeated _ hp => exact .inr (.inr (.inr ⟨by rcases hp with hp | hp <;> simp [hp], _, by simp, rfl⟩))
  | reserved _ _ hp => exact .inr (.inr (.inr ⟨hp, _, by simp, rfl⟩))

/-- In FAULT no word has an effect (R606). -/
theorem serveWord_fault {w : ReqWord} {s : State} (hp : s.phase = .fault) : serveWord w s = .next s := by
  unfold serveWord
  cases decode w with
  | error e => simp [serveReserved, hp]
  | ok i => cases i <;> simp [exec, execRd, execIfetch, execDec, serveRead, hp]

/-- `Served` describes the outcome of a word exactly: it is the converse of `serveWord_served`. -/
theorem serveWord_of_served {w : ReqWord} {s t : State} (h : Served w s t) : serveWord w s = .next t := by
  cases h with
  | ignored hp => exact serveWord_fault hp
  | readEarly hi hp =>
    rcases hi with ⟨a, hi⟩ | ⟨a, hi⟩ <;> rcases hp with hp | hp <;>
      simp [serveWord, hi, exec, execRd, execIfetch, serveRead, hp]
  | dataByte a hi hp => simp [serveWord, hi, exec, execRd, serveRead, hp, memRead_romv]
  | opcodeByte a b hi hp hb => simp [serveWord, hi, exec, execIfetch, serveRead, hp, hb]
  | started hi hp => simp [serveWord, hi, exec, execDec, hp]
  | repeated hi hp => rcases hp with hp | hp <;> simp [serveWord, hi, exec, execDec, hp]
  | reserved e hi hp =>
    cases hs : s.phase with
    | fault => exact absurd hs hp
    | idle | busy | done => simp [serveWord, hi, serveReserved, hs]

/-- A step at which a word is presented serves it on the state with that turn taken off. -/
theorem step_of_request {s : State} {who : Requester} {w : ReqWord} {later : List Turn}
    (h : s.pending = .request who w :: later) : step s = serveWord w { s with pending := later } := by
  simp only [step, nextMove, h]
  rfl

/-! ### PHASE -/

theorem resetSequence_phase (L : Launch) :
    (keycheck L = none → (resetSequence L).phase = .idle) ∧
    ∀ c, keycheck L = some c → (resetSequence L).phase = .fault := by
  rcases resetSequence_cases L with ⟨c, hk, e⟩ | ⟨hk, k, _, e⟩
  · simp [hk, e]
  · simp [hk, e, loadedState]

/-- Settles O18: the word of DEC, the last DECODE_STEP and a raised fault are the only steps that move PHASE. -/
theorem phaseChangesOnlyAsStated : Obligations.PhaseChangesOnlyAsStated := by
  unfold Obligations.PhaseChangesOnlyAsStated
  refine ⟨fun s t h => ?_, fun L t h => ?_⟩
  · rcases step_cases h with ⟨who, w, later, hq, hs⟩ | ⟨hp, p, _, rfl, hn⟩ | ⟨_, ⟨p, rfl⟩, _⟩
    · rcases hs.effect with rfl | ⟨b, rfl⟩ | ⟨hp, rfl, rfl⟩ | ⟨hp, c, _, rfl⟩
      · exact .inl rfl
      · exact .inl rfl
      · exact .inr (.inl ⟨hp, rfl, who, later, hq⟩)
      · exact .inr (.inr (.inr ⟨hp, rfl, who, w, later, hq⟩))
    · rw [decodeStep_phase]
      split
      · next hc => exact .inr (.inr (.inl ⟨hp, rfl, hc, hn⟩))
      · exact .inl rfl
    · exact .inl rfl
  · obtain ⟨_, _, rfl⟩ := launch_next h
    exact resetSequence_phase L

/-! ### CNT -/

/-- A DECODE_STEP advances CNT, without a wrap, or stays at the last address and ends in DONE (R104, R430). -/
theorem decodeStep_cnt_phase (s : State) (hp : s.phase = .busy) :
    (s.cnt.toNat < 0x7FFF → (decodeStep s).cnt.toNat = s.cnt.toNat + 1 ∧ (decodeStep s).phase = .busy) ∧
    (s.cnt = 0x7FFF → (decodeStep s).cnt = 0x7FFF ∧ (decodeStep s).phase = .done) := by
  rw [decodeStep_cnt, decodeStep_phase]
  constructor
  · intro hc
    have below : s.cnt ≠ Config.lastAddress := fun e => by simp [e] at hc
    rw [if_neg below, if_neg below]
    exact ⟨by bv_omega, hp⟩
  · intro hc
    have last : s.cnt = Config.lastAddress := hc
    rw [if_pos last, if_pos last]
    exact ⟨hc, rfl⟩

/-- DEC in IDLE does nothing but start DECODE at address 0. -/
theorem Served.eq_of_dec_idle {s t : State} (h : Served (encode .dec) s t) (hp : s.phase = .idle) :
    t = { s with cnt := 0, phase := .busy } :=
  Host.Outcome.next.inj ((serveWord_of_served h).symm.trans (serveWord_of_served (.started decode_encode_dec hp)))

/-- Any other word keeps CNT, and so does DEC in any other phase. -/
theorem Served.cnt_eq {w : ReqWord} {s t : State} (h : Served w s t) (hn : ¬(s.phase = .idle ∧ w = encode .dec)) :
    t.cnt = s.cnt := by
  rcases h.effect with rfl | ⟨b, rfl⟩ | ⟨hp, hw, _⟩ | ⟨_, c, _, rfl⟩
  · rfl
  · rfl
  · exact absurd ⟨hp, hw⟩ hn
  · rfl

/-- No word reads CNT: with another one it is served alike, and DEC in IDLE even gives the same state. -/
theorem Served.of_cnt {w : ReqWord} {s t : State} (h : Served w s t) (c : Address) :
    Served w { s with cnt := c } t ∨ Served w { s with cnt := c } { t with cnt := c } := by
  cases h with
  | ignored hp => exact .inr (.ignored hp)
  | readEarly hi hp => exact .inr (.readEarly hi hp)
  | dataByte a hi hp => exact .inr (.dataByte a hi hp)
  | opcodeByte a b hi hp hb => exact .inr (.opcodeByte a b hi hp hb)
  | started hi hp => exact .inl (.started hi hp)
  | repeated hi hp => exact .inr (.repeated hi hp)
  | reserved e hi hp => exact .inr (.reserved e hi hp)

/-- Settles O19: each kind of step by what it does to CNT, and the independence of a request from it. -/
theorem cntMovesOnlyAsStated : Obligations.CntMovesOnlyAsStated := by
  unfold Obligations.CntMovesOnlyAsStated
  refine ⟨fun s t h => ?_, fun s t c h ⟨who, w, later, hq⟩ => ?_⟩
  · rcases step_cases h with ⟨who, w, later, hq, hs⟩ | ⟨hp, p, _, rfl, hn⟩ | ⟨hp, ⟨p, rfl⟩, hn⟩
    · refine ⟨fun _ hn => absurd hq (hn who w later), fun hp ⟨who', later', hd⟩ => ?_, fun _ hnot => ?_⟩
      · obtain ⟨_, rfl⟩ := Turn.request.inj (List.cons.inj (hq.symm.trans hd)).1
        rw [hs.eq_of_dec_idle hp]
      · exact hs.cnt_eq fun ⟨hp, hw⟩ => hnot ⟨hp, who, later, hw ▸ hq⟩
    · refine ⟨fun _ _ => ⟨decodeStep_src _, decodeStep_cnt_phase { s with pending := p } hp⟩, ?_, ?_⟩
      · intro _ ⟨who, later, hd⟩
        exact absurd hd (hn who _ later)
      · exact fun hnot _ => absurd ⟨hp, hn⟩ hnot
    · refine ⟨fun hb => absurd hb hp, ?_, fun _ _ => rfl⟩
      intro _ ⟨who, later, hd⟩
      exact absurd hd (hn who _ later)
  · rw [step_of_request hq] at h
    rw [step_of_request (s := { s with cnt := c }) hq]
    exact ((serveWord_served h).of_cnt c).imp serveWord_of_served serveWord_of_served

/-! ### CAUSE -/

/-- A step keeps CAUSE and whether PHASE is FAULT, or it raises a fault and changes nothing else but the list of turns (R109). -/
theorem step_cause_cases {s t : State} (h : step s = .next t) :
    (t.cause = s.cause ∧ (t.phase = .fault ↔ s.phase = .fault)) ∨
    (s.phase ≠ .fault ∧ ∃ c later, c ≠ .none ∧ t = raiseFault c { s with pending := later }) := by
  rcases step_cases h with ⟨who, w, later, _, hs⟩ | ⟨hp, p, _, rfl, _⟩ | ⟨_, ⟨p, rfl⟩, _⟩
  · rcases hs.effect with rfl | ⟨b, rfl⟩ | ⟨hp, _, rfl⟩ | ⟨hp, c, hc, rfl⟩
    · exact .inl ⟨rfl, Iff.rfl⟩
    · exact .inl ⟨rfl, Iff.rfl⟩
    · have idle : s.phase = .idle := hp
      exact .inl ⟨rfl, by simp [idle]⟩
    · exact .inr ⟨hp, c, later, hc, rfl⟩
  · refine .inl ⟨decodeStep_cause _, ?_⟩
    rw [decodeStep_phase]
    split <;> simp [hp]
  · exact .inl ⟨rfl, Iff.rfl⟩

/-- A step keeps that CAUSE is NONE exactly outside FAULT. -/
theorem step_keeps_cause_iff (s t : State) (hs : s.cause = .none ↔ s.phase ≠ .fault) (h : step s = .next t) :
    t.cause = .none ↔ t.phase ≠ .fault := by
  rcases step_cause_cases h with ⟨hc, hp⟩ | ⟨_, c, later, hc, rfl⟩
  · rw [hc, hs, Ne, Ne, hp]
  · simp [hc]

/-- After the reset sequence CAUSE is NONE exactly outside FAULT. -/
theorem resetSequence_cause_iff (L : Launch) : (resetSequence L).cause = .none ↔ (resetSequence L).phase ≠ .fault := by
  rcases resetSequence_cases L with ⟨c, hk, e⟩ | ⟨_, k, _, e⟩
  · simp [e, keycheck_ne_none hk]
  · simp [e, loadedState]

/-- Settles O20: the relation of CAUSE and PHASE holds at every launch and is kept by every step. -/
theorem causeIsWrittenByFaultsOnly : Obligations.CauseIsWrittenByFaultsOnly := by
  unfold Obligations.CauseIsWrittenByFaultsOnly
  refine ⟨fun L t u turns n h hrun => ?_, fun s t h hne => ?_⟩
  · obtain ⟨_, _, rfl⟩ := launch_next h
    exact run_keeps step_keeps_cause_iff (s := { resetSequence L with pending := turns }) (resetSequence_cause_iff L) hrun
  · rcases step_cause_cases h with ⟨hc, _⟩ | ⟨hp, c, later, _, rfl⟩
    · exact absurd hc hne
    · exact ⟨hp, later, rfl⟩

end Sys2Proof.Machine

/-! PROOFS. The access primitives of 20_memory.md: MemRead and MemWrite (R203). -/

namespace Sys2Proof.Machine

/-! ### The memory behind a view after a write -/

@[simp] theorem viewOf_memWrite_self (v : View) (a : Address) (b : Byte) (s : State) :
    viewOf v (memWrite v a b s) = memStore v (viewOf v s) a.toNat b := by
  cases v <;> rfl

theorem viewOf_memWrite_ne {v v' : View} (h : v' ≠ v) (a : Address) (b : Byte) (s : State) :
    viewOf v' (memWrite v a b s) = viewOf v' s := by
  cases v <;> cases v'
  case romv.romv | opv.opv => exact absurd rfl h
  case romv.opv | opv.romv => rfl

/-! ### The bytes of both views after a write -/

@[simp] theorem memRead_memWrite_self (v : View) (a : Address) (b : Byte) (s : State) :
    memRead v a (memWrite v a b s) = some b := by
  rw [memRead_eq_byteAt, viewOf_memWrite_self, byteAt_memStore_self]

theorem memRead_memWrite_view_ne {v v' : View} (h : v' ≠ v) (a a' : Address) (b : Byte) (s : State) :
    memRead v' a' (memWrite v a b s) = memRead v' a' s :=
  memRead_congr (viewOf_memWrite_ne h a b s) a'

theorem memRead_memWrite_address_ne {a a' : Address} (h : a' ≠ a) (v : View) (b : Byte) (s : State) :
    memRead v a' (memWrite v a b s) = memRead v a' s := by
  have hn : a'.toNat ≠ a.toNat := fun e => h (BitVec.eq_of_toNat_eq e)
  rw [memRead_eq_byteAt, memRead_eq_byteAt, viewOf_memWrite_self, byteAt_memStore_ne _ _ _ _ hn]

/-- A byte differs from the one written by its view or by its address. -/
theorem memRead_memWrite_ne {v v' : View} {a a' : Address} (h : ¬(v' = v ∧ a' = a)) (b : Byte) (s : State) :
    memRead v' a' (memWrite v a b s) = memRead v' a' s := by
  by_cases hv : v' = v
  · subst hv
    exact memRead_memWrite_address_ne (fun ha => h ⟨rfl, ha⟩) v' b s
  · exact memRead_memWrite_view_ne hv a a' b s

/-! ### Every other field -/

/-- With both memories put back, a written state is the state before the write. -/
theorem memWrite_frame (v : View) (a : Address) (b : Byte) (s : State) :
    { memWrite v a b s with romv := s.romv, opv := s.opv } = s := by
  cases v <;> rfl

/-- Settles O24: a write is a store in the memory behind its view, and a store moves one address. -/
theorem writeSetsTheNamedByteOnly : Obligations.WriteSetsTheNamedByteOnly := by
  unfold Obligations.WriteSetsTheNamedByteOnly
  exact fun v a b s =>
    ⟨memRead_memWrite_self v a b s, fun _ _ h => memRead_memWrite_ne h b s, memWrite_frame v a b s⟩

end Sys2Proof.Machine

/-! PROOFS. The checked table of 40_permutation_library.md: PERMCHECK (R403) and what an accepted PERM_TABLE lists (R401). -/

namespace Sys2Proof.Machine

/-! ### One entry -/

/-- The second check of R403 looks for each of the four positions in a tuple of four, which leaves no place for another. -/
theorem tupleOk_iff_perm (t : PermTuple) : tupleOk t = true ↔ (tupleElements t).Perm [0, 2, 4, 6] := by
  have subset_iff : tupleOk t = true ↔ [0, 2, 4, 6] ⊆ tupleElements t := by
    simp only [tupleOk, List.all_eq_true, List.contains_iff_mem, List.subset_def]
  rw [subset_iff]
  constructor
  · intro h
    have positions_nodup : [0, 2, 4, 6].Nodup := by decide
    exact ((positions_nodup.subperm h).perm_of_length_le (Nat.le_refl 4)).symm
  · exact fun h => h.symm.subset

/-! ### The table -/

/-- A launch is refused for its table before its catalogue is looked at. -/
theorem launch_of_permCheck_false {L : Launch} (h : permCheck L.permTable = false) :
    launch L = .refused .permTableRejected := by
  simp [launch, h]

/-- An accepted table is a reordering of the 24 tuples: it has as many entries, all of them among those and no two equal. -/
theorem perm_allTuples_of_permCheck {T : List PermTuple} (h : permCheck T = true) : T.Perm Config.allTuples.toList := by
  obtain ⟨hlen, hok, hnodup⟩ := (permCheck_iff T).1 h
  have among : T ⊆ Config.allTuples.toList := fun t ht => (tupleOk_iff_mem t).1 (hok t ht)
  exact (hnodup.subperm among).perm_of_length_le (by simp [hlen])

/-- Settles O46: each check of R403 in the words of the statement, and the launch by its first test. -/
theorem permcheckRefusesTheLaunch : Obligations.PermcheckRefusesTheLaunch := by
  unfold Obligations.PermcheckRefusesTheLaunch
  refine ⟨fun T => ?_, fun L => ⟨launch_of_permCheck_false, fun t h => ?_⟩⟩
  · simp only [permCheck_iff, tupleOk_iff_perm]
    refine and_congr_right fun _ => and_congr_right fun _ => ⟨fun hnodup s s' _ _ hne he => ?_, fun hdistinct => ?_⟩
    · exact hne (hnodup.getElem_inj_iff.1 he)
    · exact List.pairwise_iff_getElem.2 fun s s' hs hs' hlt => hdistinct s s' hs hs' hlt.ne
  · obtain ⟨hperm, _, _⟩ := launch_next h
    exact hperm

/-- Settles O47: the entries as R403 checks them, and each permutation among them since the table is a reordering of all 24. -/
theorem permTableListsEachPermutationOnce : Obligations.PermTableListsEachPermutationOnce := by
  unfold Obligations.PermTableListsEachPermutationOnce
  intro T h
  obtain ⟨hlen, hok, hnodup⟩ := (permCheck_iff T).1 h
  refine ⟨hlen, fun s => ⟨?_, ?_⟩, fun s s' he => ?_, fun t ht => ?_⟩
  · rw [perm_permVector hlen, List.getElem?_eq_getElem]
  · rw [perm_permVector hlen, ← tupleOk_iff_perm]
    exact hok _ (List.getElem_mem _)
  · rw [perm_permVector hlen, perm_permVector hlen] at he
    exact Fin.ext (hnodup.getElem_inj_iff.1 he)
  · have listed : t ∈ T :=
      (perm_allTuples_of_permCheck h).mem_iff.2 ((tupleOk_iff_mem t).1 ((tupleOk_iff_perm t).2 ht))
    obtain ⟨i, hi, he⟩ := List.getElem_of_mem listed
    exact ⟨⟨i, hlen ▸ hi⟩, (perm_permVector hlen _).trans he⟩

end Sys2Proof.Machine

/-! PROOFS. The Decode Engine of 41_decode_engine.md: ROW (R421), PERMUTE (R423), the key entry (R425), XFORM (R426 to R428)
and DECODE_STEP (R430). -/

namespace Sys2Proof.Machine

/-! ### ROW -/

/-- A bit of an address is one Boolean, so that appending it to a row is `BitVec.concat`. -/
theorem addressBit_eq_ofBool (a : Address) (i : Nat) : addressBit a i = BitVec.ofBool (a.getLsbD i) := by
  ext j hj
  obtain rfl : j = 0 := by omega
  simp [addressBit]

/-- The row built up bit by bit, the most significant first. -/
theorem row_eq_concat (a : Address) : row a =
    (((((BitVec.ofBool (a.getLsbD 14)).concat (a.getLsbD 12)).concat (a.getLsbD 9)).concat (a.getLsbD 6)).concat
      (a.getLsbD 3)).concat (a.getLsbD 0) := by
  simp only [row, addressBit_eq_ofBool]
  rfl

/-- Settles O52: each appended bit doubles the row and adds itself. -/
theorem rowTakesSixAddressBits : Obligations.RowTakesSixAddressBits := by
  unfold Obligations.RowTakesSixAddressBits
  refine ⟨fun a => ?_, by decide⟩
  rw [row_eq_concat]
  simp only [BitVec.toNat_concat, BitVec.toNat_ofBool]
  omega

/-! ### The key entry -/

theorem keyEntry_val (a : Address) (p : Path) : (keyEntry a p).val = 2 * (row a).toNat + (pathBit p).toNat :=
  row_append_toNat (row a) (pathBit p)

/-- Settles O54: the key entry is the row followed by the path's bit, and XFORM is defined with it. -/
theorem keyEntryIsTwiceTheRowPlusThePath : Obligations.KeyEntryIsTwiceTheRowPlusThePath := by
  unfold Obligations.KeyEntryIsTwiceTheRowPlusThePath
  exact fun a => ⟨keyEntry_val a .opcode, keyEntry_val a .data, fun _ _ _ _ => rfl⟩

/-! ### PERMUTE -/

/-- PERMUTE bit by bit. It asks nothing of the tuple: a position outside the byte gives a zero. -/
theorem permute_getLsbD (x : Byte) (t : PermTuple) {i : Nat} (hi : i < 8) : (permute x t).getLsbD i =
    if i = 6 then x.getLsbD t.p0 else if i = 4 then x.getLsbD t.p1 else if i = 2 then x.getLsbD t.p2
    else if i = 0 then x.getLsbD t.p3 else x.getLsbD i := by
  simp only [permute, BitVec.getLsbD_or, BitVec.getLsbD_and, BitVec.getLsbD_shiftLeft, bitOf_getLsbD]
  interval_cases i <;> simp

/-- A checked tuple takes its source bits from the four even positions only. -/
theorem mem_positions_of_tupleOk {t : PermTuple} (h : tupleOk t = true) {p : Nat} (hp : p ∈ tupleElements t) :
    p ∈ [0, 2, 4, 6] :=
  ((tupleOk_iff_perm t).1 h).subset hp

/-- PERMUTE fixes a byte that shows the same bit at all four even positions. -/
theorem permute_eq_self_of_evenBits {x : Byte} {b : Bool} (hx : ∀ p ∈ [0, 2, 4, 6], x.getLsbD p = b) {t : PermTuple}
    (ht : tupleOk t = true) : permute x t = x := by
  have moved : ∀ p ∈ tupleElements t, x.getLsbD p = b := fun p hp => hx p (mem_positions_of_tupleOk ht hp)
  obtain ⟨e0, e1, e2, e3⟩ : x.getLsbD t.p0 = b ∧ x.getLsbD t.p1 = b ∧ x.getLsbD t.p2 = b ∧ x.getLsbD t.p3 = b := by
    simpa [tupleElements] using moved
  refine BitVec.eq_of_getLsbD_eq fun i hi => ?_
  rw [permute_getLsbD x t hi, e0, e1, e2, e3]
  split_ifs with h6 h4 h2 h0
  · rw [h6, hx 6 (by decide)]
  · rw [h4, hx 4 (by decide)]
  · rw [h2, hx 2 (by decide)]
  · rw [h0, hx 0 (by decide)]
  · rfl

theorem getLsbD_0x55 : ∀ p ∈ [0, 2, 4, 6], (0x55 : Byte).getLsbD p = true := by decide

/-- The mask 0x55 shows the even bits as they are. -/
theorem getLsbD_and_0x55 (x : Byte) {p : Nat} (hp : p ∈ [0, 2, 4, 6]) : (x &&& 0x55).getLsbD p = x.getLsbD p := by
  rw [BitVec.getLsbD_and, getLsbD_0x55 p hp, Bool.and_true]

/-- R423: a byte whose even bits are all 0 or all 1 is fixed under every checked tuple. -/
theorem permute_eq_self_of_mask {x : Byte} (hx : x &&& 0x55 = 0x00 ∨ x &&& 0x55 = 0x55) {t : PermTuple}
    (ht : tupleOk t = true) : permute x t = x := by
  rcases hx with hx | hx
  · refine permute_eq_self_of_evenBits (b := false) (fun p hp => ?_) ht
    rw [← getLsbD_and_0x55 x hp, hx]
    exact BitVec.getLsbD_zero
  · refine permute_eq_self_of_evenBits (b := true) (fun p hp => ?_) ht
    rw [← getLsbD_and_0x55 x hp, hx, getLsbD_0x55 p hp]

/-- The identity tuple takes each even bit from its own place. -/
@[simp] theorem permute_identity (x : Byte) : permute x ⟨6, 4, 2, 0⟩ = x := by
  refine BitVec.eq_of_getLsbD_eq fun i hi => ?_
  rw [permute_getLsbD x _ hi]
  split_ifs with h6 h4 h2 h0
  · rw [h6]
  · rw [h4]
  · rw [h2]
  · rw [h0]
  · rfl

/-- Settles O49: PERMUTE bit by bit, the bytes it fixes, and the example of R423. -/
theorem permuteMovesTheEvenBits : Obligations.PermuteMovesTheEvenBits := by
  unfold Obligations.PermuteMovesTheEvenBits
  exact ⟨fun x t ht => ⟨fun _ hi => permute_getLsbD x t hi, fun hx => permute_eq_self_of_mask hx ht⟩,
    permute_identity, by decide⟩

/-! ### XFORM at a numbered key entry -/

section xform
variable (T : Vector PermTuple 24) (K : EffectiveKey) (src : Byte) {a : Address} {p : Path} {k : Nat} (h : k < 128)

/-- XFORM with the number of its key entry in place of the entry. -/
theorem xform_of_entry (hk : (keyEntry a p).val = k) :
    xform T K src a p = permute src (perm T K.selt[k]) ^^^ K.xort[k] := by
  subst hk
  rfl

/-- With the identity tuple and XOR value 0x00 a path changes nothing. -/
theorem xform_of_identity_entry (hk : (keyEntry a p).val = k) (ht : perm T K.selt[k] = ⟨6, 4, 2, 0⟩) (hc : K.xort[k] = 0) :
    xform T K src a p = src := by
  rw [xform_of_entry T K src h hk, ht, hc, permute_identity]
  exact BitVec.xor_zero

/-- 0xAA and 0x55 are fixed by PERMUTE, so a path only XORs them. -/
theorem xform_of_fixed_byte (hk : (keyEntry a p).val = k) (ht : tupleOk (perm T K.selt[k]) = true)
    (hs : src = 0xAA ∨ src = 0x55) : xform T K src a p = src ^^^ K.xort[k] := by
  have fixed : src &&& 0x55 = 0x00 ∨ src &&& 0x55 = 0x55 := by rcases hs with rfl | rfl <;> decide
  rw [xform_of_entry T K src h hk, permute_eq_self_of_mask fixed ht]

end xform

/-! ### DECODE_STEP -/

theorem memRead_opv_decodeStep_cnt (s : State) :
    memRead .opv s.cnt (decodeStep s) = some (xformOp s.permTable s.key (romByte s s.cnt) s.cnt) := by
  rw [decodeStep_opByte, if_pos rfl]

theorem memRead_romv_decodeStep_cnt (s : State) :
    memRead .romv s.cnt (decodeStep s) = some (xformData s.permTable s.key (romByte s s.cnt) s.cnt) := by
  rw [memRead_romv, decodeStep_romByte, if_pos rfl]

/-- A DECODE_STEP touches no address but CNT, in either view. -/
theorem memRead_decodeStep_ne {s : State} {a : Address} (h : a ≠ s.cnt) (v : View) :
    memRead v a (decodeStep s) = memRead v a s := by
  cases v with
  | romv => rw [memRead_romv, memRead_romv, decodeStep_romByte, if_neg h]
  | opv => rw [decodeStep_opByte, if_neg h]

/-- Settles O25: the bytes, the counter and the phase after a DECODE_STEP, and the fields it keeps. -/
theorem decodeStepDecodesOneAddress : Obligations.DecodeStepDecodesOneAddress := by
  unfold Obligations.DecodeStepDecodesOneAddress
  refine ⟨fun s hp => engineTurn_not_busy hp, fun s hp => ?_⟩
  have last : s.cnt = 0x7FFF → (engineTurn s).phase = .done ∧ (engineTurn s).cnt = s.cnt := fun hc => by
    rw [engineTurn_busy hp, decodeStep_phase, decodeStep_cnt, if_pos hc, if_pos hc]
    exact ⟨rfl, rfl⟩
  have below : s.cnt ≠ 0x7FFF → (engineTurn s).phase = .busy ∧ (engineTurn s).cnt = s.cnt + 1 := fun hc => by
    rw [engineTurn_busy hp, decodeStep_phase, decodeStep_cnt, if_neg hc, if_neg hc]
    exact ⟨hp, rfl⟩
  refine ⟨?_, ?_, ?_, ?_, last, below, engineTurn_keeps s⟩ <;> rw [engineTurn_busy hp]
  · exact decodeStep_src s
  · exact memRead_opv_decodeStep_cnt s
  · exact memRead_romv_decodeStep_cnt s
  · exact fun v a ha => memRead_decodeStep_ne ha v

/-- Settles O55: a DECODE_STEP's two bytes, and each path's transform at its entry of the row's pair. -/
theorem pathTransforms : Obligations.PathTransforms := by
  unfold Obligations.PathTransforms
  refine ⟨fun s hp => ?_, fun T K src a => ⟨fun h => ?_, fun h => ?_, ?_⟩⟩
  · rw [engineTurn_busy hp]
    exact ⟨memRead_opv_decodeStep_cnt s, memRead_romv_decodeStep_cnt s⟩
  · have entry : (keyEntry a .opcode).val = 2 * (row a).toNat := keyEntry_val a .opcode
    exact ⟨xform_of_entry T K src h entry, xform_of_identity_entry T K src h entry, xform_of_fixed_byte T K src h entry⟩
  · have entry : (keyEntry a .data).val = 2 * (row a).toNat + 1 := keyEntry_val a .data
    exact ⟨xform_of_entry T K src h entry, xform_of_identity_entry T K src h entry, xform_of_fixed_byte T K src h entry⟩
  · have := (row a).isLt
    omega

end Sys2Proof.Machine

/-! PROOFS. The Variant Key Catalogue of 42_key_catalogue.md: key resolution (R464), WINDOW (R465), the effective key (R466),
KEYCHECK (R467) and what it leaves unchecked (R468). -/

namespace Sys2Proof.Machine

/-! ### Key resolution -/

section resolveKey
variable {v : BitVec 4} {C : List KeyConfig} {direct : KeyConfig}

theorem resolveKey_of_le (hv : v.toNat ≤ 10) : resolveKey v C direct = C[v.toNat]? := by
  have catalogued : v.toNat < Config.numVariants := Nat.lt_succ_of_le hv
  rw [resolveKey, if_pos catalogued]

theorem resolveKey_direct (hv : v = 15) : resolveKey v C direct = some direct := by
  subst hv
  rfl

theorem resolveKey_eq_none (hlo : 11 ≤ v.toNat) (hhi : v.toNat ≤ 14) : resolveKey v C direct = none := by
  have uncatalogued : ¬v.toNat < Config.numVariants := Nat.not_lt.2 hlo
  have indirect : v ≠ 15 := by bv_omega
  rw [resolveKey, if_neg uncatalogued, if_neg indirect]

/-- KEY_DIRECT is read for variant 15 only. -/
theorem resolveKey_congr_of_ne (hv : v ≠ 15) (direct' : KeyConfig) : resolveKey v C direct = resolveKey v C direct' := by
  simp only [resolveKey, if_neg hv]

/-- A variant of a checked catalogue selects one of its entries, which is well formed (R462). -/
theorem resolveKey_catalogue (hC : catalogueOk C = true) (hv : v.toNat ≤ 10) :
    ∃ k, resolveKey v C direct = some k ∧ keyWellFormed k = true := by
  obtain ⟨hlen, hwf, _⟩ := (catalogueOk_iff C).1 hC
  have listed : v.toNat < C.length := by omega
  exact ⟨C[v.toNat], by rw [resolveKey_of_le hv, List.getElem?_eq_getElem listed], hwf _ (List.getElem_mem listed)⟩

end resolveKey

/-! ### KEYCHECK -/

/-- Checks 3 to 5 of R467, which look at the raw configuration alone: the cause of the first that fails, or none. -/
def keyTablesCause (k : KeyConfig) : Option Cause :=
  if keyLengthsOk k = false then some .cfgTableLength
  else if keyOffsetOk k = false then some .cfgOffsetRange
  else if keySelectorsOk k = false then some .cfgSelectorRange
  else none

section keyTablesCause
variable {k k' : KeyConfig}

theorem keyTablesCause_of_lengths (hl : ¬keyLengthsOk k = true) : keyTablesCause k = some .cfgTableLength := by
  simp [keyTablesCause, hl]

theorem keyTablesCause_of_offset (hl : keyLengthsOk k = true) (ho : ¬keyOffsetOk k = true) :
    keyTablesCause k = some .cfgOffsetRange := by
  simp [keyTablesCause, hl, ho]

theorem keyTablesCause_of_selectors (hl : keyLengthsOk k = true) (ho : keyOffsetOk k = true)
    (hs : ¬keySelectorsOk k = true) : keyTablesCause k = some .cfgSelectorRange := by
  simp [keyTablesCause, hl, ho, hs]

theorem keyTablesCause_of_wellFormed (h : keyWellFormed k = true) : keyTablesCause k = none := by
  obtain ⟨hl, ho, hs⟩ := (keyWellFormed_iff k).1 h
  simp [keyTablesCause, hl, ho, hs]

theorem keyTablesCause_congr (hl : keyLengthsOk k = keyLengthsOk k') (ho : keyOffsetOk k = keyOffsetOk k')
    (hs : keySelectorsOk k = keySelectorsOk k') : keyTablesCause k = keyTablesCause k' := by
  simp only [keyTablesCause, hl, ho, hs]

end keyTablesCause

section keycheck
variable {L : Launch}

/-- Check 1 of R467 is key resolution. -/
theorem keycheck_of_unresolved (h : resolveKey L.variant L.catalogue L.keyDirect = none) :
    keycheck L = some .cfgVariantRange := by
  simp [keycheck, h]

/-- The checks after key resolution: the two buffer sizes, then the configuration. -/
theorem keycheck_of_resolved {k : KeyConfig} (h : resolveKey L.variant L.catalogue L.keyDirect = some k) :
    keycheck L = if L.image.length = 0x8000 ∧ L.opcodeViewSize = 0x8000 then keyTablesCause k else some .cfgBufferSize := by
  by_cases sizes : L.image.length = 0x8000 ∧ L.opcodeViewSize = 0x8000
  · rw [if_pos sizes]
    simp [keycheck, h, sizes, keyTablesCause]
  · have wrongSize : L.image.length ≠ Config.romSize ∨ L.opcodeViewSize ≠ Config.romSize := not_and_or.1 sizes
    simp only [keycheck, h, if_pos wrongSize, if_neg sizes]

theorem keycheck_of_sizes {k : KeyConfig} (h : resolveKey L.variant L.catalogue L.keyDirect = some k)
    (hi : L.image.length = 0x8000) (ho : L.opcodeViewSize = 0x8000) : keycheck L = keyTablesCause k := by
  rw [keycheck_of_resolved h, if_pos ⟨hi, ho⟩]

/-- KEYCHECK looks at KEY_DIRECT through checks 3 to 5 only. -/
theorem keycheck_congr_direct {d d' : KeyConfig} (h : keyTablesCause d = keyTablesCause d') :
    keycheck { L with keyDirect := d } = keycheck { L with keyDirect := d' } := by
  by_cases hv : L.variant = 15
  · rw [keycheck_of_resolved (L := { L with keyDirect := d }) (resolveKey_direct hv),
      keycheck_of_resolved (L := { L with keyDirect := d' }) (resolveKey_direct hv), h]
  · simp only [keycheck, resolveKey_congr_of_ne hv d']

end keycheck

/-! ### The launch -/

theorem launch_of_accepted {L : Launch} (hT : permCheck L.permTable = true) (hC : catalogueOk L.catalogue = true) :
    launch L = .next (resetSequence L) := by
  simp [launch, hT, hC]

theorem resetSequence_of_keycheck_some {L : Launch} {c : Cause} (h : keycheck L = some c) :
    resetSequence L = raiseFault c (loadedState L) := by
  simp [resetSequence, h]

theorem resetSequence_of_keycheck_none {L : Launch} (h : keycheck L = none) :
    ∃ k, resolveKey L.variant L.catalogue L.keyDirect = some k ∧
      resetSequence L = { loadedState L with key := effectiveKey k } := by
  rcases resetSequence_cases L with ⟨c, hc, _⟩ | ⟨_, resolved⟩
  · cases h.symm.trans hc
  · exact resolved

/-- Settles O37: key resolution by the variant's range; without a key the first check of the launch fails. -/
theorem keyResolution : Obligations.KeyResolution := by
  unfold Obligations.KeyResolution
  intro L hT hC
  obtain ⟨hlen, _, _⟩ := (catalogueOk_iff L.catalogue).1 hC
  refine ⟨fun h => ?_, fun hv => by omega, resolveKey_direct, fun hlo hhi => ?_⟩
  · have hv : L.variant.toNat ≤ 10 := by omega
    exact ⟨hv, by rw [resolveKey_of_le hv, List.getElem?_eq_getElem h]⟩
  · have unresolved : keycheck L = some .cfgVariantRange := keycheck_of_unresolved (resolveKey_eq_none hlo hhi)
    refine ⟨resetSequence L, launch_of_accepted hT hC, ?_⟩
    rw [resetSequence_of_keycheck_some unresolved]
    exact ⟨rfl, rfl⟩

/-! ### The order of the checks -/

/-- Checks 3 and 5 of a PLAIN configuration, in the words of R467. -/
theorem keyTablesCause_plain (xor : List Byte) (sel : List Nat) :
    (¬(xor.length = 128 ∧ sel.length = 128) → keyTablesCause (.plain xor sel) = some .cfgTableLength) ∧
    (xor.length = 128 → sel.length = 128 →
      ((∃ n ∈ sel, 23 < n) → keyTablesCause (.plain xor sel) = some .cfgSelectorRange) ∧
      ((∀ n ∈ sel, n ≤ 23) → keyTablesCause (.plain xor sel) = none)) := by
  refine ⟨fun hl => keyTablesCause_of_lengths (mt (keyLengthsOk_plain xor sel).1 hl), fun hx hs => ?_⟩
  have lengths : keyLengthsOk (.plain xor sel) = true := (keyLengthsOk_plain xor sel).2 ⟨hx, hs⟩
  refine ⟨fun ⟨n, hn, hlt⟩ => ?_, fun hsel => ?_⟩
  · refine keyTablesCause_of_selectors lengths rfl fun hsel => ?_
    have := (keySelectorsOk_plain xor sel).1 hsel n hn
    omega
  · exact keyTablesCause_of_wellFormed ((keyWellFormed_iff _).2
      ⟨lengths, rfl, (keySelectorsOk_plain xor sel).2 fun n hn => Nat.lt_succ_of_le (hsel n hn)⟩)

/-- Checks 3 to 5 of a SHIFTED configuration, in the words of R467. -/
theorem keyTablesCause_shifted (mxor : List Byte) (msel : List Nat) (o : Nat) :
    (¬(mxor.length = 131 ∧ msel.length = 131) → keyTablesCause (.shifted mxor msel o) = some .cfgTableLength) ∧
    (mxor.length = 131 → msel.length = 131 →
      (3 < o → keyTablesCause (.shifted mxor msel o) = some .cfgOffsetRange) ∧
      (o ≤ 3 → (∃ n ∈ msel, 23 < n) → keyTablesCause (.shifted mxor msel o) = some .cfgSelectorRange) ∧
      (o ≤ 3 → (∀ n ∈ msel, n ≤ 23) → keyTablesCause (.shifted mxor msel o) = none)) := by
  refine ⟨fun hl => keyTablesCause_of_lengths (mt (keyLengthsOk_shifted mxor msel o).1 hl), fun hx hs => ?_⟩
  have lengths : keyLengthsOk (.shifted mxor msel o) = true := (keyLengthsOk_shifted mxor msel o).2 ⟨hx, hs⟩
  refine ⟨fun ho => ?_, fun ho ⟨n, hn, hlt⟩ => ?_, fun ho hsel => ?_⟩
  · exact keyTablesCause_of_offset lengths (mt (keyOffsetOk_shifted mxor msel o).1 (Nat.not_le.2 ho))
  · refine keyTablesCause_of_selectors lengths ((keyOffsetOk_shifted mxor msel o).2 ho) fun hsel => ?_
    have := (keySelectorsOk_shifted mxor msel o).1 hsel n hn
    omega
  · exact keyTablesCause_of_wellFormed ((keyWellFormed_iff _).2 ⟨lengths, (keyOffsetOk_shifted mxor msel o).2 ho,
      (keySelectorsOk_shifted mxor msel o).2 fun n hn => Nat.lt_succ_of_le (hsel n hn)⟩)

/-- Settles O38: key resolution, the sizes, then checks 3 to 5 of the resolved key; the reset sequence by KEYCHECK's answer. -/
theorem keycheckFirstFailureWins : Obligations.KeycheckFirstFailureWins := by
  unfold Obligations.KeycheckFirstFailureWins
  intro L hC
  refine ⟨fun hlo hhi => keycheck_of_unresolved (resolveKey_eq_none hlo hhi), fun hv wrongSize => ?_,
    fun hi ho => ⟨fun hv => ?_, fun xor sel hv hd => ?_, fun mxor msel o hv hd => ?_⟩, fun hnone => ?_, fun c hc => ?_⟩
  · obtain ⟨k, hk⟩ : ∃ k, resolveKey L.variant L.catalogue L.keyDirect = some k := by
      rcases hv with hv | hv
      · obtain ⟨k, hk, _⟩ := resolveKey_catalogue hC hv
        exact ⟨k, hk⟩
      · exact ⟨_, resolveKey_direct hv⟩
    rw [keycheck_of_resolved hk, if_neg wrongSize]
  · obtain ⟨k, hk, hwf⟩ := resolveKey_catalogue hC hv
    rw [keycheck_of_sizes hk hi ho, keyTablesCause_of_wellFormed hwf]
  · rw [keycheck_of_sizes (resolveKey_direct hv) hi ho, hd]
    exact keyTablesCause_plain xor sel
  · rw [keycheck_of_sizes (resolveKey_direct hv) hi ho, hd]
    exact keyTablesCause_shifted mxor msel o
  · obtain ⟨k, hk, e⟩ := resetSequence_of_keycheck_none hnone
    rw [e]
    exact ⟨rfl, k, hk, rfl⟩
  · rw [resetSequence_of_keycheck_some hc]
    exact ⟨rfl, rfl⟩

/-! ### XOR values -/

/-- Settles O43: check 3 counts the XOR values and no other check sees them; a bit of a XOR is the XOR of the bits. -/
theorem xorValuesAreNotChecked : Obligations.XorValuesAreNotChecked := by
  unfold Obligations.XorValuesAreNotChecked
  refine ⟨fun L xor xor' sel hlen => ?_, fun L mxor mxor' msel o hlen => ?_, fun T K src a p i => ?_⟩
  · have lengths : keyLengthsOk (.plain xor sel) = keyLengthsOk (.plain xor' sel) := by simp only [keyLengthsOk, hlen]
    exact keycheck_congr_direct (keyTablesCause_congr lengths rfl rfl)
  · have lengths : keyLengthsOk (.shifted mxor msel o) = keyLengthsOk (.shifted mxor' msel o) := by
      simp only [keyLengthsOk, hlen]
    exact keycheck_congr_direct (keyTablesCause_congr lengths rfl rfl)
  · exact BitVec.getLsbD_xor

/-! ### WINDOW -/

section window
variable {α : Type} {M : List α} {o : Nat}

theorem window_getElem? {i : Nat} (hi : i < 128) : (window M o)[i]? = M[o + i]? := by
  rw [window, List.getElem?_take_of_lt hi, List.getElem?_drop]

theorem window_length (hM : M.length = 131) (ho : o ≤ 3) : (window M o).length = 128 := by
  rw [window, List.length_take, List.length_drop, hM, Config.keyLen_eq]
  omega

theorem mem_of_mem_window {x : α} (hx : x ∈ window M o) : x ∈ M :=
  List.mem_of_mem_drop (List.mem_of_mem_take hx)

end window

/-- Settles O39: a window drops the entries below the offset and takes 128. -/
theorem windowIsThe128EntriesFromTheOffset : Obligations.WindowIsThe128EntriesFromTheOffset := by
  unfold Obligations.WindowIsThe128EntriesFromTheOffset
  exact fun _ M o hM ho =>
    ⟨window_length hM ho, fun i h hi => by rw [window_getElem? hi, List.getElem?_eq_getElem h]⟩

/-! ### The effective key -/

/-- The effective tables of a well-formed configuration, of either form: 128 entries each, every selector in 0..23. -/
theorem effectiveTables_of_wellFormed {k : KeyConfig} (h : keyWellFormed k = true) :
    (effectiveXor k).length = 128 ∧ (effectiveSel k).length = 128 ∧ ∀ n ∈ effectiveSel k, n < 24 := by
  obtain ⟨hl, ho, hs⟩ := (keyWellFormed_iff k).1 h
  cases k with
  | plain xor sel =>
    obtain ⟨hx, hn⟩ := (keyLengthsOk_plain xor sel).1 hl
    exact ⟨hx, hn, (keySelectorsOk_plain xor sel).1 hs⟩
  | shifted mxor msel o =>
    obtain ⟨hx, hn⟩ := (keyLengthsOk_shifted mxor msel o).1 hl
    have offset : o ≤ 3 := (keyOffsetOk_shifted mxor msel o).1 ho
    exact ⟨window_length hx offset, window_length hn offset,
      fun n hw => (keySelectorsOk_shifted mxor msel o).1 hs n (mem_of_mem_window hw)⟩

/-- Of a well-formed configuration, XORT and SELT hold the effective tables as they are: no entry is filled in or reduced. -/
theorem effectiveKey_entry {k : KeyConfig} (h : keyWellFormed k = true) (i : Fin 128) :
    (effectiveXor k)[i.val]? = some ((effectiveKey k).xort[i]) ∧
    (effectiveSel k)[i.val]? = some ((effectiveKey k).selt[i]).val := by
  obtain ⟨hx, hs, hsel⟩ := effectiveTables_of_wellFormed h
  have hix : i.val < (effectiveXor k).length := i.isLt.trans_eq hx.symm
  have his : i.val < (effectiveSel k).length := i.isLt.trans_eq hs.symm
  have inRange : (effectiveSel k)[i.val] < 24 := hsel _ (List.getElem_mem his)
  constructor
  · simp [effectiveKey, hix]
  · simp [effectiveKey, his, Nat.mod_eq_of_lt inRange]

/-- Settles O40: the entries of the effective tables, which for a SHIFTED key are windows at the one offset. -/
theorem effectiveKeyOfEitherForm : Obligations.EffectiveKeyOfEitherForm := by
  unfold Obligations.EffectiveKeyOfEitherForm
  refine ⟨fun xor sel h => effectiveKey_entry h, fun mxor msel o h i => ?_⟩
  rw [← window_getElem? i.isLt, ← window_getElem? i.isLt]
  exact effectiveKey_entry h i

end Sys2Proof.Machine

/-! PROOFS. The requests of 43_bus_requests.md: reserved words (R497), RD (R491), IF (R493) and DEC (R495). -/

namespace Sys2Proof.Machine

/-! ### The words of the requests -/

theorem opField_joined (op : BitVec 2) (a : Address) : opField (op ++ a : BitVec (2 + 15)) = op := by
  apply BitVec.eq_of_toNat_eq
  rw [opField_toNat, joined_toNat]
  have := a.isLt
  omega

theorem addrField_joined (op : BitVec 2) (a : Address) : addrField (op ++ a : BitVec (2 + 15)) = a := by
  apply BitVec.eq_of_toNat_eq
  rw [addrField_toNat, joined_toNat]
  have := a.isLt
  omega

theorem decode_encode_rd (a : Address) : decode (encode (.rd a)) = .ok (.rd a) := by
  simp [decode, opField_encode_rd, addrField_encode_rd]

theorem decode_encode_ifetch (a : Address) : decode (encode (.ifetch a)) = .ok (.ifetch a) := by
  simp [decode, opField_encode_ifetch, addrField_encode_ifetch]

theorem decode_dec_with_address {a : Address} (ha : a ≠ 0) :
    decode (0b10#2 ++ a : BitVec (2 + 15)) = .error .decWithAddress := by
  have op : opField (0b10#2 ++ a : BitVec (2 + 15)) = 0b10 := opField_joined 0b10 a
  have addr : addrField (0b10#2 ++ a : BitVec (2 + 15)) = a := addrField_joined 0b10 a
  rw [decode, op, addr, if_neg (by decide), if_neg (by decide), if_pos rfl, if_neg ha]

/-! ### Reserved words -/

theorem matchesWord_iff (r : TableRow) (w : ReqWord) : r.matchesWord w = true ↔ w &&& r.mask = r.matchBits :=
  beq_iff_eq

/-- A word that decodes to a request matches the request's row of the table (R304). -/
theorem exists_row_of_decode {w : ReqWord} {i : Instr} (h : decode w = .ok i) :
    ∃ r ∈ opcodeTable, r.matchesWord w = true := by
  unfold decode at h
  split at h
  · next op => exact ⟨⟨"RD", 0x00000, 0x18000⟩, by decide, (matchesWord_iff _ w).2 ((masked_eq_iff w 0).2 op)⟩
  · split at h
    · next op => exact ⟨⟨"IF", 0x08000, 0x18000⟩, by decide, (matchesWord_iff _ w).2 ((masked_eq_iff w 1).2 op)⟩
    · split at h
      · next op =>
        split at h
        · next addr =>
          obtain rfl : w = encode .dec := reqWord_eq_of_fields op addr
          exact ⟨⟨"DEC", 0x10000, 0x1FFFF⟩, by decide, by decide⟩
        · cases h
      · cases h

/-- A word that matches no row is reserved (R305). -/
theorem exists_decode_error_of_no_row {w : ReqWord} (h : ∀ r ∈ opcodeTable, r.matchesWord w = false) :
    ∃ e, decode w = .error e := by
  cases hd : decode w with
  | error e => exact ⟨e, rfl⟩
  | ok i =>
    obtain ⟨r, hr, hm⟩ := exists_row_of_decode hd
    exact absurd hm (Bool.eq_false_iff.1 (h r hr))

/-- Settles O6: a word that matches no row does not decode, and is served as reserved. -/
theorem reservedWordRaisesReservedRequest : Obligations.ReservedWordRaisesReservedRequest := by
  unfold Obligations.ReservedWordRaisesReservedRequest
  intro s who w later hq hrow
  obtain ⟨e, he⟩ := exists_decode_error_of_no_row hrow
  rw [step_of_request hq]
  exact ⟨fun hp => serveWord_of_served (.reserved e he hp), fun hp => serveWord_fault hp⟩

/-! ### What a request and its word have in common -/

/-- The meaning of a request is what its word is served with. -/
theorem exec_of_served {i : Instr} {w : ReqWord} {s t : State} (hd : decode w = .ok i) (h : Served w s t) :
    exec i s = .next t := by
  have served := serveWord_of_served h
  rwa [serveWord, hd] at served

@[simp] theorem memRead_respond (v : View) (a : Address) (b : Byte) (s : State) :
    memRead v a (respond b s) = memRead v a s :=
  memRead_congr (by cases v <;> rfl) a

@[simp] theorem romByte_respond (a : Address) (b : Byte) (s : State) : romByte (respond b s) a = romByte s a :=
  romByte_congr rfl a

/-! ### The views in DONE -/

/-- In DONE both views hold the two decodings of the image (R433). -/
theorem decodesImage_done {E : Address → Byte} {s : State} (hp : s.phase = .done) (h : s.decodesImage E) (a : Address) :
    romByte s a = xformData s.permTable s.key (E a) a ∧
      memRead .opv a s = some (xformOp s.permTable s.key (E a) a) := by
  simp only [State.decodesImage, hp] at h
  exact h a

/-- In DONE the invariant gives every entry of OPV a byte (R436). -/
theorem State.Inv.exists_opByte {s : State} (h : s.Inv) (hp : s.phase = .done) (a : Address) :
    ∃ b, memRead .opv a s = some b := by
  have progress := h.progress
  simp only [progressOk, hp] at progress
  exact Option.isSome_iff_exists.1 (progress.2 a)

/-! ### RD -/

theorem exec_rd_done {a : Address} {s : State} (hp : s.phase = .done) :
    exec (.rd a) s = .next (respond (romByte s a) s) :=
  exec_of_served (decode_encode_rd a) (.dataByte a (decode_encode_rd a) hp)

/-- Settles O9: RD by phase; the byte returned is that of ROMV, which the response does not change. -/
theorem rdServesTheDataByte : Obligations.RdServesTheDataByte := by
  unfold Obligations.RdServesTheDataByte
  intro s a
  have word := decode_encode_rd a
  refine ⟨word, fun hp => exec_of_served word (.ignored hp),
    fun hp => exec_of_served word (.readEarly (.inl ⟨a, word⟩) hp), fun hp => ?_⟩
  refine ⟨romByte s a, memRead_romv a s, exec_rd_done hp, ?_, fun E hE => (decodesImage_done hp hE a).1⟩
  have again := exec_rd_done (a := a) (s := respond (romByte s a) s) hp
  rwa [romByte_respond] at again

/-! ### IF -/

theorem exec_ifetch_done {a : Address} {b : Byte} {s : State} (hp : s.phase = .done) (hb : memRead .opv a s = some b) :
    exec (.ifetch a) s = .next (respond b s) :=
  exec_of_served (decode_encode_ifetch a) (.opcodeByte a b (decode_encode_ifetch a) hp hb)

/-- Settles O10: IF by phase; the byte returned is that of OPV, which the response does not change. -/
theorem ifServesTheOpcodeByte : Obligations.IfServesTheOpcodeByte := by
  unfold Obligations.IfServesTheOpcodeByte
  intro s a
  have word := decode_encode_ifetch a
  refine ⟨word, fun hp => exec_of_served word (.ignored hp),
    fun hp => exec_of_served word (.readEarly (.inr ⟨a, word⟩) hp), fun hp hi => hi.exists_opByte hp a, fun b hp hb => ?_⟩
  have again : memRead .opv a (respond b s) = some b := (memRead_respond .opv a b s).trans hb
  exact ⟨exec_ifetch_done hp hb, exec_ifetch_done (s := respond b s) hp again,
    fun E hE => Option.some.inj (hb.symm.trans (decodesImage_done hp hE a).2)⟩

/-! ### DEC and the turns that follow it -/

/-- As long as `n` turns do not pass the last address, they leave ENGINE in BUSY with CNT advanced by `n` (R430, R436). -/
theorem engineTurns_busy {s : State} (hp : s.phase = .busy) {n : Nat} (hn : s.cnt.toNat + n ≤ 0x7FFF) :
    (engineTurns n s).phase = .busy ∧ (engineTurns n s).cnt.toNat = s.cnt.toNat + n := by
  induction n with
  | zero => exact ⟨hp, rfl⟩
  | succ n ih =>
    obtain ⟨busy, cnt⟩ := ih (by omega)
    rw [engineTurns_succ', engineTurn_busy busy]
    obtain ⟨cnt', busy'⟩ := (decodeStep_cnt_phase _ busy).1 (by omega)
    exact ⟨busy', by omega⟩

/-- The turn at the last address ends in DONE. -/
theorem engineTurns_done {s : State} (hp : s.phase = .busy) {n : Nat} (hn : s.cnt.toNat + n = 0x8000) :
    (engineTurns n s).phase = .done := by
  have := s.cnt.isLt
  obtain ⟨m, rfl⟩ : ∃ m, n = m + 1 := ⟨n - 1, by omega⟩
  obtain ⟨busy, cnt⟩ := engineTurns_busy (s := s) (n := m) hp (by omega)
  have last : (engineTurns m s).cnt = 0x7FFF := BitVec.eq_of_toNat_eq (show _ = 0x7FFF by omega)
  rw [engineTurns_succ', engineTurn_busy busy]
  exact ((decodeStep_cnt_phase _ busy).2 last).2

/-- Settles O12: DEC by phase; from IDLE it starts at address 0, so that ENGINE is at address `n` after `n` turns. -/
theorem decStartsDecoding : Obligations.DecStartsDecoding := by
  unfold Obligations.DecStartsDecoding
  have word := decode_encode_dec
  refine ⟨word, fun a ha => ⟨_, decode_dec_with_address ha⟩, fun s => ⟨fun hp => exec_of_served word (.ignored hp),
    fun hp => exec_of_served word (.repeated word hp), fun hp => ?_⟩⟩
  refine ⟨exec_of_served word (.started word hp), fun n hn => ?_, ?_, fun hc => ?_⟩
  · exact (engineTurns_busy (s := { s with cnt := 0, phase := .busy }) rfl (by simp; omega)).1
  · exact engineTurns_done (s := { s with cnt := 0, phase := .busy }) rfl (Nat.zero_add _)
  · simp only [State.status, hc]
    decide

end Sys2Proof.Machine

/-! PROOFS. The faults of 60_exceptions.md: which requests raise one (R604), what raising it changes (R606), and that FAULT is
never left (R607). -/

namespace Sys2Proof.Machine

/-! ### Which words raise a fault -/

/-- The three words that raise a fault and the cause each raises (R604): a read before DONE, a second DEC, a reserved word. -/
theorem Served.fault_cases {w : ReqWord} {s t : State} (h : Served w s t) (hs : s.phase ≠ .fault) (ht : t.phase = .fault) :
    ((∃ a, decode w = .ok (.rd a) ∨ decode w = .ok (.ifetch a)) ∧ (s.phase = .idle ∨ s.phase = .busy) ∧
      t.cause = .readBeforeDone) ∨
    (decode w = .ok .dec ∧ (s.phase = .busy ∨ s.phase = .done) ∧ t.cause = .decodeRepeated) ∨
    ((∃ e, decode w = .error e) ∧ t.cause = .reservedRequest) := by
  cases h with
  | ignored _ => exact absurd ht hs
  | readEarly hi hp => exact .inl ⟨exists_or.2 hi, hp, rfl⟩
  | dataByte _ _ _ => exact absurd ht hs
  | opcodeByte _ _ _ _ _ => exact absurd ht hs
  | started _ _ => cases ht
  | repeated hi hp => exact .inr (.inl ⟨hi, hp, rfl⟩)
  | reserved e hi _ => exact .inr (.inr ⟨⟨e, hi⟩, rfl⟩)

/-- A step that enters FAULT serves a word: DECODE_STEP ends in BUSY or DONE, and no other turn moves PHASE. -/
theorem exists_served_of_step_enters_fault {s t : State} (h : step s = .next t) (hs : s.phase ≠ .fault)
    (ht : t.phase = .fault) :
    ∃ who w later, s.pending = .request who w :: later ∧ Served w { s with pending := later } t := by
  rcases step_cases h with served | ⟨hp, p, _, rfl, _⟩ | ⟨_, ⟨p, rfl⟩, _⟩
  · exact served
  · rw [decodeStep_phase] at ht
    split at ht
    · cases ht
    · exact absurd ht hs
  · exact absurd ht hs

/-- In BUSY every word raises a fault: a read comes before DONE, DEC is repeated, any other word is reserved (R604). -/
theorem exists_served_fault_of_busy (w : ReqWord) {s : State} (hp : s.phase = .busy) :
    ∃ c, Served w s (raiseFault c s) := by
  cases hd : decode w with
  | error e => exact ⟨_, .reserved e hd (by simp [hp])⟩
  | ok i =>
    cases i with
    | rd a => exact ⟨_, .readEarly (.inl ⟨a, hd⟩) (.inr hp)⟩
    | ifetch a => exact ⟨_, .readEarly (.inr ⟨a, hd⟩) (.inr hp)⟩
    | dec => exact ⟨_, .repeated hd (.inl hp)⟩

/-- A presented word that is served with a fault takes the step to FAULT, with that cause. -/
theorem step_enters_fault_of_served {s : State} {who : Requester} {w : ReqWord} {later : List Turn} {c : Cause}
    (hq : s.pending = .request who w :: later)
    (h : Served w { s with pending := later } (raiseFault c { s with pending := later })) :
    ∃ t, step s = .next t ∧ t.phase = .fault ∧ t.cause = c :=
  ⟨_, (step_of_request hq).trans (serveWord_of_served h), rfl, rfl⟩

/-- Settles O15: the words served with a fault, in both directions; in BUSY these are all words. -/
theorem requestFaultsAreTheThreeCases : Obligations.RequestFaultsAreTheThreeCases := by
  unfold Obligations.RequestFaultsAreTheThreeCases
  refine ⟨fun s t h hs ht => ?_, fun s who w later hq => ⟨fun hp hi => ?_, fun hp hi => ?_, fun hp ⟨e, hi⟩ => ?_, fun hp => ?_⟩⟩
  · obtain ⟨who, w, later, hq, served⟩ := exists_served_of_step_enters_fault h hs ht
    exact ⟨who, w, later, hq, served.fault_cases hs ht⟩
  · exact step_enters_fault_of_served hq (.readEarly (exists_or.1 hi) hp)
  · exact step_enters_fault_of_served hq (.repeated hi hp)
  · exact step_enters_fault_of_served hq (.reserved e hi hp)
  · obtain ⟨c, served⟩ := exists_served_fault_of_busy w (s := { s with pending := later }) hp
    obtain ⟨t, ht, phase, _⟩ := step_enters_fault_of_served hq served
    exact ⟨t, ht, phase⟩

/-! ### In FAULT nothing has an effect -/

/-- In FAULT no request has an effect (R606). -/
theorem exec_fault (i : Instr) {s : State} (hp : s.phase = .fault) : exec i s = .next s := by
  cases i with
  | rd a => exact exec_of_served (decode_encode_rd a) (.ignored hp)
  | ifetch a => exact exec_of_served (decode_encode_ifetch a) (.ignored hp)
  | dec => exact exec_of_served decode_encode_dec (.ignored hp)

/-- In FAULT no DECODE_STEP is enabled (R607). -/
theorem engineTurn_fault {s : State} (hp : s.phase = .fault) : engineTurn s = s :=
  engineTurn_not_busy (by simp [hp])

/-- Raising a fault leaves every byte of both views as it was. -/
@[simp] theorem memRead_raiseFault (v : View) (a : Address) (c : Cause) (s : State) :
    memRead v a (raiseFault c s) = memRead v a s :=
  memRead_congr (by cases v <;> rfl) a

/-- Settles O16: the state after `raiseFault` is in FAULT, where ENGINE has no step and no request an effect. -/
theorem faultEntryChangesPhaseAndCauseOnly : Obligations.FaultEntryChangesPhaseAndCauseOnly := by
  unfold Obligations.FaultEntryChangesPhaseAndCauseOnly
  intro c s
  have fault : (raiseFault c s).phase = .fault := raiseFault_phase c s
  exact ⟨rfl, fun v a => memRead_raiseFault v a c s, engineTurn_fault fault, fun i => exec_fault i fault⟩

/-! ### FAULT is never left -/

/-- In FAULT a step goes on, whoever's turn it is, and changes nothing but the list of turns. -/
theorem step_fault {s : State} (hp : s.phase = .fault) : ∃ later, step s = .next { s with pending := later } := by
  cases hq : s.pending with
  | nil =>
    have keeps : step s = .next s := by simp [step, nextMove, hq, engineTurn_fault hp]
    exact ⟨s.pending, keeps⟩
  | cons turn later =>
    cases turn with
    | request who w => exact ⟨later, (step_of_request hq).trans (serveWord_fault hp)⟩
    | engine =>
      have keeps := engineTurn_fault (s := { s with pending := later }) hp
      exact ⟨later, by simp [step, nextMove, hq, keeps]⟩
    | wait =>
      have keeps : step s = .next s := by simp [step, nextMove, hq, hp]
      exact ⟨s.pending, keeps⟩

/-- In FAULT a run of any length goes on and changes nothing but the list of turns. -/
theorem run_fault (n : Nat) {s : State} (hp : s.phase = .fault) : ∃ later, run n s = .next { s with pending := later } := by
  induction n generalizing s with
  | zero => exact ⟨s.pending, rfl⟩
  | succ n ih =>
    obtain ⟨p, hstep⟩ := step_fault hp
    obtain ⟨later, hrun⟩ := ih (s := { s with pending := p }) hp
    exact ⟨later, (run_succ_of_step hstep n).trans hrun⟩

/-- A final state is in DONE (R710), so none is in FAULT. -/
theorem final_eq_false_of_fault {s : State} (hp : s.phase = .fault) : s.final = false := by
  simp [State.final, hp]

/-- Settles O17, by induction on the length of the run. -/
theorem faultIsSticky : Obligations.FaultIsSticky := by
  unfold Obligations.FaultIsSticky
  intro s n hp
  obtain ⟨later, hrun⟩ := run_fault n hp
  exact ⟨later, hrun, final_eq_false_of_fault (s := { s with pending := later }) hp⟩

end Sys2Proof.Machine

/-! PROOFS. The reset sequence of 70_reset_and_hazards.md (R702). -/

namespace Sys2Proof.Machine

/-! ### What the configuration check leaves as it was loaded -/

/-- Whatever KEYCHECK answers, the reset sequence moves PHASE, CAUSE and the key of the loaded state alone (R702). -/
theorem resetSequence_eq_loadedState_with (L : Launch) :
    ∃ p c K, resetSequence L = { loadedState L with phase := p, cause := c, key := K } := by
  rcases resetSequence_cases L with ⟨c, _, failed⟩ | ⟨_, k, _, passed⟩
  · exact ⟨.fault, c, noKey, failed⟩
  · exact ⟨.idle, .none, effectiveKey k, passed⟩

section resetSequence
variable (L : Launch)

@[simp] theorem resetSequence_romv : (resetSequence L).romv = loadImage L.image := by
  obtain ⟨p, c, K, e⟩ := resetSequence_eq_loadedState_with L
  rw [e]; rfl

@[simp] theorem resetSequence_opv : (resetSequence L).opv = [] := by
  obtain ⟨p, c, K, e⟩ := resetSequence_eq_loadedState_with L
  rw [e]; rfl

@[simp] theorem resetSequence_cnt : (resetSequence L).cnt = 0 := by
  obtain ⟨p, c, K, e⟩ := resetSequence_eq_loadedState_with L
  rw [e]; rfl

@[simp] theorem resetSequence_keycfg : (resetSequence L).keycfg = L.variant := by
  obtain ⟨p, c, K, e⟩ := resetSequence_eq_loadedState_with L
  rw [e]; rfl

@[simp] theorem resetSequence_permTable : (resetSequence L).permTable = permVector L.permTable := by
  obtain ⟨p, c, K, e⟩ := resetSequence_eq_loadedState_with L
  rw [e]; rfl

end resetSequence

/-! ### The two views after reset -/

/-- After reset ROMV holds the image (R702). -/
theorem romByte_resetSequence {L : Launch} {a : Address} (h : a.toNat < L.image.length) :
    romByte (resetSequence L) a = imageByte L.image a.toNat :=
  (romByte_congr (resetSequence_romv L) a).trans (loadedState_romByte L a h)

/-- After reset no entry of OPV holds a value (R120, R702). -/
theorem memRead_opv_resetSequence (L : Launch) (a : Address) : memRead .opv a (resetSequence L) = none := by
  rw [memRead_opv, resetSequence_opv]; rfl

/-- Settles O36: the loaded fields, which no outcome of KEYCHECK moves, then PHASE, CAUSE and the key by its answer. -/
theorem resetSequence_spec : Obligations.ResetSequence := by
  unfold Obligations.ResetSequence
  intro L hT hC
  refine ⟨resetSequence L, launch_of_accepted hT hC, fun a => romByte_resetSequence, memRead_opv_resetSequence L,
    resetSequence_cnt L, resetSequence_keycfg L, resetSequence_permTable L, fun c failed => ?_, fun passed => ?_⟩
  · rw [resetSequence_of_keycheck_some failed]
    exact ⟨rfl, rfl⟩
  · obtain ⟨k, resolved, e⟩ := resetSequence_of_keycheck_none passed
    rw [e]
    exact ⟨rfl, rfl, k, resolved, rfl⟩

end Sys2Proof.Machine

/-! PROOFS. The request words of 30_encoding.md: what the decoder reads (R303, R304, R310), which words are reserved (R305), and
that the encoder is its inverse. -/

namespace Sys2Proof.Machine

/-! ### The decoder, by the field OP -/

section decode
variable {w : ReqWord}

theorem decode_of_op_rd (op : opField w = 0b00) : decode w = .ok (.rd (addrField w)) := by
  simp [decode, op]

theorem decode_of_op_ifetch (op : opField w = 0b01) : decode w = .ok (.ifetch (addrField w)) := by
  simp [decode, op]

theorem decode_of_op_dec (op : opField w = 0b10) :
    decode w = if addrField w = 0 then .ok .dec else .error .decWithAddress := by
  simp [decode, op]

theorem decode_of_op_reserved (op : opField w = 0b11) : decode w = .error .reservedOp := by
  simp [decode, op]

end decode

/-- OP has one of four values. -/
theorem opField_cases (w : ReqWord) : opField w = 0b00 ∨ opField w = 0b01 ∨ opField w = 0b10 ∨ opField w = 0b11 := by
  have all : ∀ op : BitVec 2, op = 0b00 ∨ op = 0b01 ∨ op = 0b10 ∨ op = 0b11 := by decide
  exact all (opField w)

/-! ### The encoder -/

@[simp] theorem decode_encode (i : Instr) : decode (encode i) = .ok i := by
  cases i with
  | rd a => exact decode_encode_rd a
  | ifetch a => exact decode_encode_ifetch a
  | dec => exact decode_encode_dec

theorem encode_of_decode {w : ReqWord} {i : Instr} (h : decode w = .ok i) : encode i = w := by
  rcases opField_cases w with op | op | op | op
  · rw [decode_of_op_rd op] at h
    cases h
    exact reqWord_eq_of_fields ((opField_encode_rd _).trans op.symm) (addrField_encode_rd _)
  · rw [decode_of_op_ifetch op] at h
    cases h
    exact reqWord_eq_of_fields ((opField_encode_ifetch _).trans op.symm) (addrField_encode_ifetch _)
  · rw [decode_of_op_dec op] at h
    split at h
    · cases h
      exact (eq_encode_dec_of_decode (by rw [decode_of_op_dec op, if_pos ‹_›])).symm
    · cases h
  · rw [decode_of_op_reserved op] at h
    cases h

/-- Settles O1: the fields of a decoded word are those of the request's encoding, and the other way round. -/
theorem decodeAndEncodeAgree : Obligations.DecodeAndEncodeAgree := by
  unfold Obligations.DecodeAndEncodeAgree
  exact fun w i => ⟨encode_of_decode, fun h => h ▸ decode_encode i⟩

/-! ### The match and mask rows -/

/-- The row of DEC compares all 17 bits. -/
theorem and_decMask (w : ReqWord) : w &&& 0x1FFFF = w := BitVec.and_allOnes

/-- Each row of the table holds a value of OP of its own. -/
theorem opField_of_matchesWord {r : TableRow} (hr : r ∈ opcodeTable) {w : ReqWord} (h : r.matchesWord w = true) :
    opField w = opField r.matchBits := by
  rw [matchesWord_iff] at h
  simp only [opcodeTable, List.mem_cons, List.not_mem_nil, or_false] at hr
  rcases hr with rfl | rfl | rfl
  · exact (masked_eq_iff w 0b00).1 h
  · exact (masked_eq_iff w 0b01).1 h
  · rw [← h, and_decMask]

/-- No word matches two rows (R304): the rows differ in OP. -/
theorem matching_rows_length_le_one (w : ReqWord) : (opcodeTable.filter fun r => r.matchesWord w).length ≤ 1 := by
  have rowsOfOp : ∀ op : BitVec 2, (opcodeTable.filter fun r => opField r.matchBits = op).length ≤ 1 := by decide
  refine le_trans ?_ (rowsOfOp (opField w))
  rw [← List.countP_eq_length_filter, ← List.countP_eq_length_filter]
  exact List.countP_mono_left fun r hr h => decide_eq_true (opField_of_matchesWord hr h).symm

/-- Settles O2: the masks 0x18000 compare OP, and the row of DEC its one word. -/
theorem decoderFollowsMatchAndMask : Obligations.DecoderFollowsMatchAndMask := by
  unfold Obligations.DecoderFollowsMatchAndMask
  intro w
  refine ⟨fun h => decode_of_op_rd ((masked_eq_iff w 0b00).1 h), fun h => decode_of_op_ifetch ((masked_eq_iff w 0b01).1 h),
    fun h => ?_, fun notRd notIf notDec => ?_, matching_rows_length_le_one w⟩
  · obtain rfl : w = encode .dec := by rw [← and_decMask w, h, encode_dec]
    exact decode_encode_dec
  · refine exists_decode_error_of_no_row fun r hr => Bool.eq_false_iff.2 fun hm => ?_
    rw [matchesWord_iff] at hm
    simp only [opcodeTable, List.mem_cons, List.not_mem_nil, or_false] at hr
    rcases hr with rfl | rfl | rfl
    · exact notRd hm
    · exact notIf hm
    · exact notDec hm

/-! ### The reserved words -/

theorem decode_reservedOp_iff (w : ReqWord) : decode w = .error .reservedOp ↔ opField w = 0b11 := by
  refine ⟨fun h => ?_, decode_of_op_reserved⟩
  rcases opField_cases w with op | op | op | op
  · rw [decode_of_op_rd op] at h; cases h
  · rw [decode_of_op_ifetch op] at h; cases h
  · rw [decode_of_op_dec op] at h; split at h <;> cases h
  · exact op

theorem decode_decWithAddress_iff (w : ReqWord) :
    decode w = .error .decWithAddress ↔ opField w = 0b10 ∧ addrField w ≠ 0 := by
  refine ⟨fun h => ?_, fun ⟨op, addr⟩ => by rw [decode_of_op_dec op, if_neg addr]⟩
  rcases opField_cases w with op | op | op | op
  · rw [decode_of_op_rd op] at h; cases h
  · rw [decode_of_op_ifetch op] at h; cases h
  · rw [decode_of_op_dec op] at h
    split at h
    · cases h
    · next addr => exact ⟨op, addr⟩
  · rw [decode_of_op_reserved op] at h; cases h

/-- Settles O3: the two kinds of reserved word by their fields, and the fields as quotient and remainder by 0x8000. -/
theorem reservedWordsAreTheTwoRanges : Obligations.ReservedWordsAreTheTwoRanges := by
  unfold Obligations.ReservedWordsAreTheTwoRanges
  intro w
  have op := opField_toNat w
  have addr := addrField_toNat w
  have := w.isLt
  rw [decode_reservedOp_iff, decode_decWithAddress_iff]
  constructor
  · rw [← BitVec.toNat_inj, op]
    show _ = 3 ↔ _
    omega
  · rw [Ne, ← BitVec.toNat_inj, ← BitVec.toNat_inj, op, addr]
    show _ = 2 ∧ ¬_ = 0 ↔ _
    omega

/-- Settles O4: each word's OP and ADDR are literals. -/
theorem specWordsDecode : Obligations.SpecWordsDecode := ⟨rfl, rfl, rfl, rfl, rfl, rfl, rfl⟩

end Sys2Proof.Machine

/-! PROOFS. One step: which move it is (logs 1, 10 and 15), the frame of the requests (43_bus_requests.md), and who writes the views
and the configuration (10_state.md). -/

namespace Sys2Proof.Machine

/-! ### Which move a step is -/

/-- Settles O5: a presented word is served, and the word of withFetchWord is presented before all others. -/
theorem stepServesThePresentedRequest : Obligations.StepServesThePresentedRequest := by
  unfold Obligations.StepServesThePresentedRequest
  refine ⟨fun s who w later i hq hd => ?_, fun s nbits w i h => ?_⟩
  · rw [step_of_request hq, serveWord, hd]
  · unfold decodeTableWord at h
    split at h
    · next inRange =>
      split at h
      · next hd =>
        cases h
        rw [State.withFetchWord, if_pos inRange, step_of_request (later := s.pending) rfl, serveWord, hd]
        rfl
      · cases h
    · cases h

theorem step_of_nothing_pending {s : State} (hq : s.pending = []) : step s = .next (engineTurn s) := by
  simp only [step, nextMove, hq]

theorem step_of_engine {s : State} {later : List Turn} (hq : s.pending = .engine :: later) :
    step s = .next (engineTurn { s with pending := later }) := by
  simp only [step, nextMove, hq]

theorem step_of_wait_busy {s : State} {later : List Turn} (hq : s.pending = .wait :: later) (hp : s.phase = .busy) :
    step s = .next (decodeStep s) := by
  simp only [step, nextMove, hq, hp, engineTurn_busy hp]

theorem step_of_wait_done {s : State} {later : List Turn} (hq : s.pending = .wait :: later) (hp : s.phase = .done) :
    step s = .next { s with pending := later } := by
  simp only [step, nextMove, hq, hp]

theorem step_of_wait_stuck {s : State} {later : List Turn} (hq : s.pending = .wait :: later)
    (hp : s.phase = .idle ∨ s.phase = .fault) : step s = .next s := by
  rcases hp with hp | hp <;> simp only [step, nextMove, hq, hp]

/-- A turn of ENGINE raises no fault (R437). -/
theorem phase_of_engineTurn_fault {s : State} (h : (engineTurn s).phase = .fault) : s.phase = .fault := by
  by_cases hp : s.phase = .busy
  · rw [engineTurn_busy hp, decodeStep_phase] at h
    split at h
    · cases h
    · exact h
  · rwa [engineTurn_not_busy hp] at h

/-- Settles O7: one lemma for each kind of turn. -/
theorem otherTurnsMoveEngineOnly : Obligations.OtherTurnsMoveEngineOnly := by
  unfold Obligations.OtherTurnsMoveEngineOnly
  exact fun s later => ⟨step_of_nothing_pending, step_of_engine, step_of_wait_busy, step_of_wait_done, step_of_wait_stuck,
    phase_of_engineTurn_fault⟩

/-- Settles O8: either way the word is served on the state without the turn, so the issuer is lost (R610). -/
theorem requesterIsNotChecked : Obligations.RequesterIsNotChecked := by
  unfold Obligations.RequesterIsNotChecked
  intro s w later
  rw [step_of_request (who := .host) rfl, step_of_request (who := .cpu) rfl]

/-! ### The requests -/

/-- Settles O11: in DONE a read answers the byte of its view, and where there is none it stops. -/
theorem ifOfAnUnwrittenByteStops : Obligations.IfOfAnUnwrittenByteStops := by
  unfold Obligations.IfOfAnUnwrittenByteStops
  intro s a hp hb
  simp only [exec, execIfetch, serveRead, hp, hb]

/-- What a request does is what its word does. -/
theorem served_of_exec {i : Instr} {s t : State} (h : exec i s = .next t) : Served (encode i) s t :=
  serveWord_served (by rw [serveWord, decode_encode]; exact h)

theorem decode_encode_eq_dec {i : Instr} (h : decode (encode i) = .ok .dec) : i = .dec := by
  rw [decode_encode] at h
  exact Except.ok.inj h

/-- No word writes a byte of either view (R118). -/
theorem Served.memRead_eq {w : ReqWord} {s t : State} (h : Served w s t) (v : View) (a : Address) :
    memRead v a t = memRead v a s := by
  rcases h.effect with rfl | ⟨b, rfl⟩ | ⟨_, _, rfl⟩ | ⟨_, c, _, rfl⟩
  · rfl
  · exact memRead_respond v a b s
  · exact memRead_congr (by cases v <;> rfl) a
  · exact memRead_raiseFault v a c s

/-- No word writes SRC, the configuration or the list of turns. -/
theorem Served.frame {w : ReqWord} {s t : State} (h : Served w s t) :
    t.src = s.src ∧ t.keycfg = s.keycfg ∧ t.key = s.key ∧ t.permTable = s.permTable ∧ t.pending = s.pending := by
  rcases h.effect with rfl | ⟨b, rfl⟩ | ⟨_, _, rfl⟩ | ⟨_, c, _, rfl⟩ <;> exact ⟨rfl, rfl, rfl, rfl, rfl⟩

/-- A word other than DEC in IDLE keeps PHASE and CAUSE unless it raises a fault; DEC in IDLE keeps CAUSE. -/
theorem Served.phase_cause_eq {w : ReqWord} {s t : State} (h : Served w s t) (hn : s.phase = .fault ∨ t.phase ≠ .fault) :
    (¬(s.phase = .idle ∧ w = encode .dec) → t.phase = s.phase) ∧ t.cause = s.cause := by
  rcases h.effect with rfl | ⟨b, rfl⟩ | ⟨hp, hw, rfl⟩ | ⟨hp, c, _, rfl⟩
  · exact ⟨fun _ => rfl, rfl⟩
  · exact ⟨fun _ => rfl, rfl⟩
  · exact ⟨fun h => absurd ⟨hp, hw⟩ h, rfl⟩
  · exact absurd (raiseFault_phase c s) (hn.resolve_left hp)

/-- Only a word of RD or IF in DONE returns a byte (R494). -/
theorem Served.returned_eq {w : ReqWord} {s t : State} (h : Served w s t)
    (hn : ¬(s.phase = .done ∧ ∃ a, decode w = .ok (.rd a) ∨ decode w = .ok (.ifetch a))) : t.returned = s.returned := by
  cases h with
  | dataByte a hi hp => exact absurd ⟨hp, a, .inl hi⟩ hn
  | opcodeByte a _ hi hp _ => exact absurd ⟨hp, a, .inr hi⟩ hn
  | ignored _ | readEarly _ _ | started _ _ | repeated _ _ | reserved _ _ _ => rfl

/-- RD and IF in DONE return one byte and have no other effect (R491, R493, R494). -/
theorem Served.exists_respond {i : Instr} {s t : State} (h : Served (encode i) s t) (hi : i ≠ .dec) (hp : s.phase = .done) :
    ∃ b, t = respond b s := by
  cases h with
  | dataByte _ _ _ => exact ⟨_, rfl⟩
  | opcodeByte _ b _ _ _ => exact ⟨b, rfl⟩
  | ignored hp' => simp [hp] at hp'
  | readEarly _ hp' => simp [hp] at hp'
  | started _ hp' => simp [hp] at hp'
  | repeated hd _ => exact absurd (decode_encode_eq_dec hd) hi
  | reserved e hd _ => simp at hd

theorem ne_dec_of_decode_read {i : Instr} {a : Address}
    (h : decode (encode i) = .ok (.rd a) ∨ decode (encode i) = .ok (.ifetch a)) : i ≠ .dec := by
  rintro rfl
  simp at h

/-- Settles O13: what a served word leaves unchanged, for the words of the three requests. -/
theorem requestsLeaveTheRestUnchanged : Obligations.RequestsLeaveTheRestUnchanged := by
  unfold Obligations.RequestsLeaveTheRestUnchanged
  intro i s t h
  have served := served_of_exec h
  obtain ⟨src, keycfg, key, permTable, pending⟩ := served.frame
  have notStart : ¬(i = .dec ∧ s.phase = .idle) → ¬(s.phase = .idle ∧ encode i = encode .dec) := fun hn ⟨hp, hw⟩ =>
    hn ⟨decode_encode_eq_dec (hw ▸ decode_encode .dec), hp⟩
  exact ⟨served.memRead_eq, src, keycfg, key, permTable, pending, fun hn => served.cnt_eq (notStart hn),
    fun hf hn => (served.phase_cause_eq hf).1 (notStart hn), fun hf => (served.phase_cause_eq hf).2,
    fun hn => served.returned_eq fun ⟨hp, _, hd⟩ => hn ⟨ne_dec_of_decode_read hd, hp⟩⟩

/-- Settles O14: the two words that return a byte, and the turns that serve no word. -/
theorem oneBytePerAdmittedRead : Obligations.OneBytePerAdmittedRead := by
  unfold Obligations.OneBytePerAdmittedRead
  refine ⟨fun i s t h => ⟨fun ⟨hi, hp⟩ => (served_of_exec h).exists_respond hi hp, fun hn => ?_⟩, fun s t h hn => ?_⟩
  · exact (served_of_exec h).returned_eq fun ⟨hp, _, hd⟩ => hn.elim (ne_dec_of_decode_read hd) (absurd hp)
  · rcases step_cases h with ⟨who, w, later, hq, served⟩ | ⟨_, p, _, rfl, _⟩ | ⟨_, ⟨p, rfl⟩, _⟩
    · exact served.returned_eq fun ⟨hp, a, hd⟩ => hn ⟨who, w, later, a, hq, hp, hd⟩
    · exact decodeStep_returned _
    · rfl

/-! ### Who writes the views and the configuration -/

/-- Settles O21: no served word writes a byte, and a DECODE_STEP writes none but those at CNT. -/
theorem onlyEngineInBusyWritesTheViews : Obligations.OnlyEngineInBusyWritesTheViews := by
  unfold Obligations.OnlyEngineInBusyWritesTheViews
  intro s t v a h hne
  have turnOff : ∀ p, memRead v a { s with pending := p } = memRead v a s := fun p => memRead_congr (by cases v <;> rfl) a
  rcases step_cases h with ⟨who, w, later, _, served⟩ | ⟨hp, p, _, rfl, hn⟩ | ⟨_, ⟨p, rfl⟩, _⟩
  · exact absurd ((served.memRead_eq v a).trans (turnOff later)) hne
  · refine ⟨hp, Decidable.byContradiction fun ha => hne ?_, hn⟩
    exact (memRead_decodeStep_ne (s := { s with pending := p }) ha v).trans (turnOff p)
  · exact absurd (turnOff p) hne

/-- A step keeps KEYCFG, the key and PERM_TABLE (R113, R114, R116). -/
theorem step_keeps_configuration {s t : State} (h : step s = .next t) :
    t.keycfg = s.keycfg ∧ t.key = s.key ∧ t.permTable = s.permTable := by
  rcases step_cases h with ⟨who, w, later, _, served⟩ | ⟨_, p, _, rfl, _⟩ | ⟨_, ⟨p, rfl⟩, _⟩
  · obtain ⟨_, keycfg, key, permTable, _⟩ := served.frame
    exact ⟨keycfg, key, permTable⟩
  · exact ⟨decodeStep_keycfg _, decodeStep_key _, decodeStep_permTable _⟩
  · exact ⟨rfl, rfl, rfl⟩

theorem run_keeps_configuration {s t : State} {n : Nat} (h : run n s = .next t) :
    t.keycfg = s.keycfg ∧ t.key = s.key ∧ t.permTable = s.permTable := by
  refine run_keeps (P := fun u => u.keycfg = s.keycfg ∧ u.key = s.key ∧ u.permTable = s.permTable) ?_ ⟨rfl, rfl, rfl⟩ h
  rintro u u' ⟨keycfg, key, permTable⟩ hstep
  obtain ⟨keycfg', key', permTable'⟩ := step_keeps_configuration hstep
  exact ⟨keycfg'.trans keycfg, key'.trans key, permTable'.trans permTable⟩

/-- Settles O22: each step keeps the three, so each run does. -/
theorem configurationNeverChanges : Obligations.ConfigurationNeverChanges := by
  unfold Obligations.ConfigurationNeverChanges
  exact fun _ _ _ h => run_keeps_configuration h

/-! ### STATUS -/

/-- The three fields of a STATUS byte, whatever codes stand in it (R110). -/
theorem status_fields (c : BitVec 4) (p : BitVec 2) :
    (c ++ 0#2 ++ p).extractLsb' 0 2 = p ∧ (c ++ 0#2 ++ p).extractLsb' 2 2 = 0 ∧ (c ++ 0#2 ++ p).extractLsb' 4 4 = c := by
  have all : ∀ (c : BitVec 4) (p : BitVec 2),
      (c ++ 0#2 ++ p).extractLsb' 0 2 = p ∧ (c ++ 0#2 ++ p).extractLsb' 2 2 = 0 ∧ (c ++ 0#2 ++ p).extractLsb' 4 4 = c := by
    decide
  exact all c p

/-- Settles O23: STATUS joins the two codes, which the tables of R108 and R602 list. -/
theorem statusLayout : Obligations.StatusLayout := by
  unfold Obligations.StatusLayout
  refine ⟨fun s => status_fields (causeCode s.cause) (phaseCode s.phase), fun s hp hc => ?_, fun s hp hc => ?_, by decide,
    by decide⟩
  · rw [State.status, hp, hc]
    decide
  · rw [State.status, hp, hc]
    decide

end Sys2Proof.Machine

/-! PROOFS. The invariant of the engine (10_state.md), the relation of the views to the image, and DECODE as a whole
(41_decode_engine.md, section 4: R433 to R438). -/

namespace Sys2Proof.Machine

/-! ### Addresses below CNT after a DECODE_STEP -/

/-- Below the last address, what lies below the advanced CNT is CNT and what lay below it. -/
theorem lt_cnt_add_one_iff {a c : Address} (hc : c ≠ Config.lastAddress) : a < c + 1 ↔ a < c ∨ a = c := by
  have : c.toNat ≠ 32767 := fun e => hc (BitVec.eq_of_toNat_eq e)
  bv_omega

/-- At the last address every other address lies below CNT. -/
theorem lt_lastAddress {a : Address} (ha : a ≠ Config.lastAddress) : a < Config.lastAddress := by
  have : a.toNat ≠ 32767 := fun e => ha (BitVec.eq_of_toNat_eq e)
  bv_omega

theorem not_lt_zero (a : Address) : ¬a < 0 := by
  bv_omega

/-! ### The invariant -/

/-- DECODE's progress after a DECODE_STEP: OPV now holds the byte at CNT as well. -/
theorem progressOk_decodeStep {s : State} (hp : s.phase = .busy) (h : ∀ a, (memRead .opv a s).isSome = true ↔ a < s.cnt) :
    progressOk (decodeStep s) := by
  have written : ∀ a, (memRead .opv a (decodeStep s)).isSome = true ↔ a = s.cnt ∨ a < s.cnt := fun a => by
    rw [decodeStep_opByte]
    split <;> simp [*]
  by_cases hc : s.cnt = Config.lastAddress
  · have done : (decodeStep s).phase = .done := by rw [decodeStep_phase, if_pos hc]
    simp only [progressOk, done]
    refine ⟨by rw [decodeStep_cnt, if_pos hc, hc], fun a => (written a).2 ?_⟩
    rw [hc]
    exact or_iff_not_imp_left.2 lt_lastAddress
  · have busy : (decodeStep s).phase = .busy := by rw [decodeStep_phase, if_neg hc, hp]
    simp only [progressOk, busy]
    intro a
    rw [written, decodeStep_cnt, if_neg hc, lt_cnt_add_one_iff hc, or_comm]

/-- A DECODE_STEP keeps the invariant. -/
theorem State.Inv.decodeStep {s : State} (h : s.Inv) (hp : s.phase = .busy) : (decodeStep s).Inv := by
  obtain ⟨romv, opv⟩ := decodeStep_wf h.romvCanonical h.opvCanonical
  have progress := h.progress
  simp only [progressOk, hp] at progress
  refine ⟨romv, opv, by rw [decodeStep_permTable]; exact h.permTableValid, ?_, progressOk_decodeStep hp progress⟩
  rw [decodeStep_cause, ← h.causeInFault, decodeStep_phase]
  split <;> simp [hp]

/-- DEC in IDLE keeps the invariant: at address 0 of BUSY nothing is written yet. -/
theorem State.Inv.start {s : State} (h : s.Inv) (hp : s.phase = .idle) : State.Inv { s with cnt := 0, phase := .busy } := by
  have progress := h.progress
  have cause := h.causeInFault
  simp only [progressOk, hp] at progress
  refine ⟨h.romvCanonical, h.opvCanonical, h.permTableValid, by simpa [hp] using cause, fun a => ?_⟩
  have unwritten : memRead .opv a { s with cnt := 0, phase := .busy } = none := progress.2 a
  exact iff_of_false (by rw [unwritten]; simp) (not_lt_zero a)

/-- Raising a fault keeps the invariant, which says nothing of DECODE's progress in FAULT. -/
theorem State.Inv.raiseFault {s : State} (h : s.Inv) {c : Cause} (hc : c ≠ .none) : (raiseFault c s).Inv :=
  ⟨h.romvCanonical, h.opvCanonical, h.permTableValid, by simp [hc], trivial⟩

/-- The invariant does not look at the turns and the returned bytes, which are the model's own. -/
theorem State.Inv.of_turns_returned {s : State} (h : s.Inv) (p : List Turn) (r : List Byte) :
    State.Inv { s with pending := p, returned := r } :=
  ⟨h.romvCanonical, h.opvCanonical, h.permTableValid, h.causeInFault, h.progress⟩

/-- Settles O31: the invariant after a served word, after a DECODE_STEP, and after a turn that changes nothing. -/
theorem stepKeepsTheInvariant : Obligations.StepKeepsTheInvariant := by
  unfold Obligations.StepKeepsTheInvariant
  intro s t hs h
  have turnOff : ∀ p, State.Inv { s with pending := p } := fun p => hs.of_turns_returned p s.returned
  rcases step_cases h with ⟨_, _, p, _, served⟩ | ⟨hp, p, _, rfl, _⟩ | ⟨_, ⟨p, rfl⟩, _⟩
  · rcases served.effect with rfl | ⟨b, rfl⟩ | ⟨hp, _, rfl⟩ | ⟨_, c, hc, rfl⟩
    · exact turnOff p
    · exact hs.of_turns_returned p (s.returned ++ [b])
    · exact (turnOff p).start hp
    · exact (turnOff p).raiseFault hc
  · exact (turnOff p).decodeStep hp
  · exact turnOff p

/-! ### The invariant at a launch -/

/-- The configuration check's outcome apart, a launch loads a canonical image over an empty OPV at address 0. -/
theorem resetSequence_inv {L : Launch} (hT : permCheck L.permTable = true) : (resetSequence L).Inv := by
  refine ⟨by rw [resetSequence_romv]; exact (loadImage_spec L.image).1, by rw [resetSequence_opv]; exact memory_wf_nil _,
    ?_, by rw [Ne, resetSequence_cause_iff L, not_not], ?_⟩
  · obtain ⟨hlen, _, _⟩ := (permCheck_iff L.permTable).1 hT
    rw [resetSequence_permTable, permVector_toList hlen]
    exact hT
  · cases hk : keycheck L with
    | some c => simp only [progressOk, (resetSequence_phase L).2 c hk]
    | none =>
      simp only [progressOk, (resetSequence_phase L).1 hk]
      exact ⟨resetSequence_cnt L, memRead_opv_resetSequence L⟩

/-- Settles O33: a launch that goes on has an accepted table and ends the reset sequence. -/
theorem launchHasTheInvariant : Obligations.LaunchHasTheInvariant := by
  unfold Obligations.LaunchHasTheInvariant
  intro L t h
  obtain ⟨hT, _, rfl⟩ := launch_next h
  exact resetSequence_inv hT

/-! ### The relation to the image -/

/-- A DECODE_STEP moves the address CNT from the image's part of ROMV to the decoded part (R430). -/
theorem decodesImage_decodeStep {E : Address → Byte} {s : State} (hp : s.phase = .busy) (h : s.decodesImage E) :
    (decodeStep s).decodesImage E := by
  simp only [State.decodesImage, hp] at h
  have here : romByte s s.cnt = E s.cnt := (h s.cnt).2 (BitVec.le_refl _)
  have decoded : ∀ a, a < s.cnt ∨ a = s.cnt → romByte (decodeStep s) a = xformData s.permTable s.key (E a) a ∧
      memRead .opv a (decodeStep s) = some (xformOp s.permTable s.key (E a) a) := fun a ha => by
    rw [decodeStep_romByte, decodeStep_opByte]
    by_cases e : a = s.cnt
    · rw [if_pos e, if_pos e, e, here]
      exact ⟨rfl, rfl⟩
    · rw [if_neg e, if_neg e]
      exact (h a).1 (ha.resolve_right e)
  by_cases hc : s.cnt = Config.lastAddress
  · have done : (decodeStep s).phase = .done := by rw [decodeStep_phase, if_pos hc]
    simp only [State.decodesImage, done, decodeStep_permTable, decodeStep_key]
    exact fun a => decoded a (or_iff_not_imp_right.2 fun ha => hc ▸ lt_lastAddress (hc ▸ ha))
  · have busy : (decodeStep s).phase = .busy := by rw [decodeStep_phase, if_neg hc, hp]
    simp only [State.decodesImage, busy, decodeStep_permTable, decodeStep_key, decodeStep_cnt, if_neg hc]
    refine fun a => ⟨fun ha => decoded a ((lt_cnt_add_one_iff hc).1 ha), fun ha => ?_⟩
    obtain ⟨notBelow, notHere⟩ := not_or.1 (mt (lt_cnt_add_one_iff hc).2 (BitVec.not_lt.2 ha))
    rw [decodeStep_romByte, if_neg notHere]
    exact (h a).2 (BitVec.not_lt.1 notBelow)

/-- DEC in IDLE keeps the relation: at address 0 of BUSY all of ROMV is the image. -/
theorem decodesImage_start {E : Address → Byte} {s : State} (hp : s.phase = .idle) (h : s.decodesImage E) :
    State.decodesImage E { s with cnt := 0, phase := .busy } := by
  simp only [State.decodesImage, hp] at h
  exact fun a => ⟨fun ha => absurd ha (not_lt_zero a), fun _ => h a⟩

/-- The relation does not look at the turns and the returned bytes. -/
theorem decodesImage_of_turns_returned {E : Address → Byte} {s : State} (h : s.decodesImage E) (p : List Turn)
    (r : List Byte) : State.decodesImage E { s with pending := p, returned := r } := h

/-- Settles O34: the relation after a served word, after a DECODE_STEP, and after a turn that changes nothing. -/
theorem stepKeepsTheImageRelation : Obligations.StepKeepsTheImageRelation := by
  unfold Obligations.StepKeepsTheImageRelation
  intro E s t hs h
  have turnOff : ∀ p, State.decodesImage E { s with pending := p } := fun p =>
    decodesImage_of_turns_returned hs p s.returned
  rcases step_cases h with ⟨_, _, p, _, served⟩ | ⟨hp, p, _, rfl, _⟩ | ⟨_, ⟨p, rfl⟩, _⟩
  · rcases served.effect with rfl | ⟨b, rfl⟩ | ⟨hp, _, rfl⟩ | ⟨_, c, _, rfl⟩
    · exact turnOff p
    · exact decodesImage_of_turns_returned hs p (s.returned ++ [b])
    · exact decodesImage_start hp (turnOff p)
    · trivial
  · exact decodesImage_decodeStep hp (turnOff p)
  · exact turnOff p

/-- A launch that passes KEYCHECK has an image of full size (R467). -/
theorem image_length_of_keycheck_none {L : Launch} (h : keycheck L = none) : L.image.length = 0x8000 := by
  obtain ⟨k, resolved, _⟩ := resetSequence_of_keycheck_none h
  rw [keycheck_of_resolved resolved] at h
  split at h
  · next sizes => exact sizes.1
  · cases h

/-- In IDLE after reset ROMV is the image; in FAULT the relation says nothing. -/
theorem resetSequence_decodesImage (L : Launch) : (resetSequence L).decodesImage fun a => imageByte L.image a.toNat := by
  cases hk : keycheck L with
  | some c => simp only [State.decodesImage, (resetSequence_phase L).2 c hk]
  | none =>
    simp only [State.decodesImage, (resetSequence_phase L).1 hk]
    exact fun a => romByte_resetSequence (by rw [image_length_of_keycheck_none hk]; exact a.isLt)

/-- Settles O35: the launch loads the image, every step keeps the relation to it, and DONE serves the decoded bytes. -/
theorem readsInDoneDecodeTheImage : Obligations.ReadsInDoneDecodeTheImage := by
  unfold Obligations.ReadsInDoneDecodeTheImage
  intro L t u turns n hlaunch hrun hdone a
  obtain ⟨_, _, rfl⟩ := launch_next hlaunch
  have loaded : (resetSequence L).decodesImage fun a => imageByte L.image a.toNat := resetSequence_decodesImage L
  obtain ⟨_, key, permTable⟩ := run_keeps_configuration hrun
  have image := run_keeps (stepKeepsTheImageRelation _) (decodesImage_of_turns_returned loaded turns _) hrun
  obtain ⟨dataByte, opByte⟩ := decodesImage_done hdone image a
  rw [key, permTable] at dataByte opByte
  exact ⟨dataByte ▸ exec_rd_done hdone, exec_ifetch_done hdone opByte⟩

end Sys2Proof.Machine

/-! PROOFS. DECODE as a whole (41_decode_engine.md, section 4): what it leaves in the two views (R433, R434), that it visits each
address once (R436), how many steps it takes, and its atomic form (R438). -/

namespace Sys2Proof.Machine

/-! ### The turns of ENGINE, all of them -/

theorem engineTurns_keeps (n : Nat) (s : State) :
    (engineTurns n s).cause = s.cause ∧ (engineTurns n s).keycfg = s.keycfg ∧ (engineTurns n s).key = s.key ∧
      (engineTurns n s).permTable = s.permTable ∧ (engineTurns n s).pending = s.pending ∧
      (engineTurns n s).returned = s.returned := by
  induction n with
  | zero => exact ⟨rfl, rfl, rfl, rfl, rfl, rfl⟩
  | succ n ih =>
    rw [engineTurns_succ']
    simpa only [engineTurn_keeps (engineTurns n s)] using ih

/-- What a DECODE_STEP keeps in BUSY, any number of turns of ENGINE keep. -/
theorem engineTurns_keep {P : State → Prop} (keeps : ∀ s, s.phase = .busy → P s → P (decodeStep s)) (n : Nat) {s : State}
    (h : P s) : P (engineTurns n s) := by
  induction n with
  | zero => exact h
  | succ n ih =>
    rw [engineTurns_succ']
    by_cases hp : (engineTurns n s).phase = .busy
    · rw [engineTurn_busy hp]
      exact keeps _ hp ih
    · rwa [engineTurn_not_busy hp]

/-- DECODE under its name: a proof about it must not unfold the turns of a literal count. -/
theorem engineTurns_32768 (s : State) : engineTurns 32768 s = decodeAll s := rfl

/-- What a DECODE_STEP keeps in BUSY, DECODE keeps. -/
theorem decodeAll_keep {P : State → Prop} (keeps : ∀ s, s.phase = .busy → P s → P (decodeStep s)) {s : State} (h : P s) :
    P (decodeAll s) := by
  rw [← engineTurns_32768]
  exact engineTurns_keep keeps 32768 h

theorem decodeAll_keeps (s : State) :
    (decodeAll s).cause = s.cause ∧ (decodeAll s).keycfg = s.keycfg ∧ (decodeAll s).key = s.key ∧
      (decodeAll s).permTable = s.permTable ∧ (decodeAll s).pending = s.pending ∧ (decodeAll s).returned = s.returned := by
  rw [← engineTurns_32768]
  exact engineTurns_keeps 32768 s

section decodeAll
variable {s : State} (hp : s.phase = .busy) (hc : s.cnt = 0)
include hp hc

/-- From BUSY at address 0, `n` turns lead to address `n`. -/
theorem engineTurns_busy_of_start {n : Nat} (hn : n < 0x8000) :
    (engineTurns n s).phase = .busy ∧ (engineTurns n s).cnt.toNat = n := by
  have start : s.cnt.toNat = 0 := by rw [hc]; rfl
  obtain ⟨busy, cnt⟩ := engineTurns_busy (s := s) (n := n) hp (by omega)
  exact ⟨busy, by omega⟩

theorem decodeAll_phase : (decodeAll s).phase = .done :=
  engineTurns_done hp (by simp [hc])

/-- DECODE from BUSY at address 0 ends with the DECODE_STEP at the last address. -/
theorem exists_last_decodeStep : ∃ n, (engineTurns n s).phase = .busy ∧ (engineTurns n s).cnt = Config.lastAddress ∧
    decodeAll s = decodeStep (engineTurns n s) := by
  obtain ⟨n, hn⟩ : ∃ n, Config.romSize = n + 1 := ⟨0x7FFF, rfl⟩
  obtain ⟨busy, cnt⟩ := engineTurns_busy_of_start hp hc (n := n) (by rw [Config.romSize_eq] at hn; omega)
  refine ⟨n, busy, BitVec.eq_of_toNat_eq ?_, ?_⟩
  · rw [cnt, Config.lastAddress_toNat]
    rw [Config.romSize_eq] at hn
    omega
  · rw [decodeAll, hn, engineTurns_succ', engineTurn_busy busy]

theorem decodeAll_cnt : (decodeAll s).cnt = Config.lastAddress := by
  obtain ⟨n, _, cnt, last⟩ := exists_last_decodeStep hp hc
  rw [last, decodeStep_cnt, if_pos cnt, cnt]

/-- At address 0 of BUSY, all of ROMV is the image that DECODE decodes. -/
theorem decodesImage_of_start : s.decodesImage (romByte s) := by
  simp only [State.decodesImage, hp, hc]
  exact fun a => ⟨fun ha => absurd ha (not_lt_zero a), fun _ => trivial⟩

theorem engineTurns_decodesImage (n : Nat) : (engineTurns n s).decodesImage (romByte s) :=
  engineTurns_keep (fun _ => decodesImage_decodeStep) n (decodesImage_of_start hp hc)

/-- When the turns have reached DONE, both views hold the two decodings of what ROMV held (R433). -/
theorem engineTurns_bytes {n : Nat} (hd : (engineTurns n s).phase = .done) (a : Address) :
    romByte (engineTurns n s) a = xformData s.permTable s.key (romByte s a) a ∧
      memRead .opv a (engineTurns n s) = some (xformOp s.permTable s.key (romByte s a) a) := by
  obtain ⟨_, _, key, permTable, _, _⟩ := engineTurns_keeps n s
  rw [← key, ← permTable]
  exact decodesImage_done hd (engineTurns_decodesImage hp hc n) a

theorem decodeAll_bytes (a : Address) :
    romByte (decodeAll s) a = xformData s.permTable s.key (romByte s a) a ∧
      memRead .opv a (decodeAll s) = some (xformOp s.permTable s.key (romByte s a) a) := by
  have done := decodeAll_phase hp hc
  rw [← engineTurns_32768] at done ⊢
  exact engineTurns_bytes hp hc done a

/-- The last byte read is that of the last address, as ROMV held it before DECODE. -/
theorem decodeAll_src : (decodeAll s).src = romByte s Config.lastAddress := by
  obtain ⟨n, busy, cnt, last⟩ := exists_last_decodeStep hp hc
  have image := engineTurns_decodesImage hp hc n
  simp only [State.decodesImage, busy, cnt] at image
  rw [last, decodeStep_src, cnt]
  exact (image Config.lastAddress).2 (BitVec.le_refl _)

end decodeAll

/-- Settles O26: DEC starts at address 0 of BUSY, where ROMV is as it was. -/
theorem decodePostcondition : Obligations.DecodePostcondition := by
  unfold Obligations.DecodePostcondition
  intro s t hp h
  obtain rfl := (served_of_exec h).eq_of_dec_idle hp
  have bytes := decodeAll_bytes (s := { s with cnt := 0, phase := .busy }) rfl rfl
  exact ⟨decodeAll_phase rfl rfl, decodeAll_cnt rfl rfl,
    fun a => ⟨(bytes a).2, (memRead_romv a _).trans (congrArg some (bytes a).1)⟩⟩

/-- Settles O27: turn `n` is the DECODE_STEP at address `n`, and DONE has both decodings everywhere. -/
theorem decodeVisitsEachAddressOnce : Obligations.DecodeVisitsEachAddressOnce := by
  unfold Obligations.DecodeVisitsEachAddressOnce
  intro s hp hc
  rw [engineTurns_32768]
  refine ⟨fun n hn => ?_, decodeAll_phase hp hc, fun a => Option.isSome_of_eq_some (decodeAll_bytes hp hc a).2⟩
  obtain ⟨busy, cnt⟩ := engineTurns_busy_of_start hp hc hn
  have here : BitVec.ofNat 15 n = (engineTurns n s).cnt := BitVec.eq_of_toNat_eq (by rw [cnt]; exact Nat.mod_eq_of_lt hn)
  rw [engineTurns_succ', engineTurn_busy busy, here]
  refine ⟨busy, cnt, fun v a ha => memRead_decodeStep_ne ?_ v, Option.isSome_of_eq_some (memRead_opv_decodeStep_cnt _)⟩
  rintro rfl
  exact ha cnt

/-! ### DEC and a wait -/

/-- While a wait is pending, steps from BUSY are turns of ENGINE up to the one that ends in DONE. -/
theorem run_wait_eq_engineTurns {s : State} {later : List Turn} (hp : s.phase = .busy) (hc : s.cnt = 0)
    (hq : s.pending = .wait :: later) {n : Nat} (hn : n ≤ 0x8000) : run n s = .next (engineTurns n s) := by
  induction n with
  | zero => rfl
  | succ n ih =>
    obtain ⟨busy, _⟩ := engineTurns_busy_of_start hp hc (n := n) (by omega)
    obtain ⟨_, _, _, _, pending, _⟩ := engineTurns_keeps n s
    rw [run_add (ih (by omega)), run_succ_of_step (step_of_wait_busy (pending.trans hq) busy), engineTurns_succ',
      engineTurn_busy busy, run_zero]

/-- DONE with nothing pending is final (R710). -/
theorem final_of_done {s : State} (hp : s.phase = .done) : State.final { s with pending := [] } = true := by
  simp [State.final, hp]

/-- Settles O28: one step for DEC, a DECODE_STEP per address while the wait is pending, one step that takes it off. -/
theorem decThenWaitIsFinal : Obligations.DecThenWaitIsFinal := by
  unfold Obligations.DecThenWaitIsFinal
  intro s who hp hq
  obtain ⟨b, start, busy, cnt, wait⟩ : ∃ b, step s = .next b ∧ b.phase = .busy ∧ b.cnt = 0 ∧ b.pending = [.wait] :=
    ⟨_, (step_of_request hq).trans (serveWord_of_served (.started decode_encode_dec hp)), rfl, rfl, rfl⟩
  have turns : ∀ n, n ≤ 32768 → run (n + 1) s = .next (engineTurns n b) := fun n hn =>
    (run_succ_of_step start n).trans (run_wait_eq_engineTurns busy cnt wait hn)
  have decoded : run (32768 + 1) s = .next (decodeAll b) := (turns 32768 le_rfl).trans (by rw [engineTurns_32768])
  have done : (decodeAll b).phase = .done := decodeAll_phase busy cnt
  obtain ⟨_, _, _, _, pending, _⟩ := decodeAll_keeps b
  have waitOff : step (decodeAll b) = .next { decodeAll b with pending := [] } :=
    step_of_wait_done (pending.trans wait) done
  refine ⟨fun n hn => ⟨_, turns n hn.le, engineTurns_busy_of_start busy cnt hn⟩, decodeAll b, decoded, done, ?_, ?_⟩
  · rw [run_add decoded 1, run_succ_of_step waitOff, run_zero]
  · exact final_of_done done

/-! ### The atomic form -/

/-- A full memory without the entries that an unlisted address reads as reads alike. -/
theorem byteAt_filter_fullMemory (v : View) (f : Address → Byte) (a : Address) :
    byteAt v ((fullMemory f).filter fun c => decide (unlisted v ≠ some c.2)) a.toNat = some (f a) := by
  have listed : ∀ b, memLookup ((fullMemory f).filter fun c => decide (unlisted v ≠ some c.2)) a.toNat = some b ↔
      b = f a ∧ unlisted v ≠ some b := fun b => by
    rw [← mem_iff_memLookup ((fullMemory_rising f).sublist List.filter_sublist), List.mem_filter, mem_fullMemory,
      decide_eq_true_iff]
  unfold byteAt
  by_cases h : unlisted v = some (f a)
  · have dropped := Option.eq_none_iff_forall_ne_some.2 fun b hb =>
      let ⟨e, kept⟩ := (listed b).1 hb
      kept (e ▸ h)
    rw [dropped, h, Option.none_or]
  · rw [(listed (f a)).2 ⟨rfl, h⟩, Option.some_or]

theorem romByte_decodeAtomic (s : State) (a : Address) :
    romByte (decodeAtomic s) a = xformData s.permTable s.key (romByte s a) a := by
  have bytes := byteAt_filter_fullMemory .romv (fun a => xformData s.permTable s.key (romByte s a) a) a
  rw [← decodeAtomic_romv] at bytes
  have read := memRead_romv a (decodeAtomic s)
  rw [memRead_eq_byteAt] at read
  exact Option.some.inj (read.symm.trans bytes)

theorem memRead_opv_decodeAtomic (s : State) (a : Address) :
    memRead .opv a (decodeAtomic s) = some (xformOp s.permTable s.key (romByte s a) a) := by
  rw [memRead_opv, decodeAtomic_opv, memLookup_fullMemory]

/-- A canonical memory lists nothing outside the address space. -/
theorem memLookup_outside {v : View} {m : Memory} (h : Memory.wf v m = true) {a : Nat} (ha : 0x8000 ≤ a) :
    memLookup m a = none := by
  obtain ⟨rising, inSpace⟩ := (memory_wf_iff v m).1 h
  refine Option.eq_none_iff_forall_ne_some.2 fun b hb => ?_
  have := (inSpace _ ((mem_iff_memLookup rising a b).2 hb)).1
  omega

/-- Two canonical memories that read alike at every address of the space are the same list. -/
theorem viewOf_ext {v : View} {s t : State} (hs : Memory.wf v (viewOf v s) = true) (ht : Memory.wf v (viewOf v t) = true)
    (h : ∀ a, memRead v a s = memRead v a t) : viewOf v s = viewOf v t := by
  refine memory_ext hs ht fun a => ?_
  by_cases ha : a < 0x8000
  · have inSpace := h (BitVec.ofNat 15 a)
    rwa [memRead_eq_byteAt, memRead_eq_byteAt, BitVec.toNat_ofNat, Nat.mod_eq_of_lt ha] at inSpace
  · simp only [byteAt, memLookup_outside hs (Nat.not_lt.1 ha), memLookup_outside ht (Nat.not_lt.1 ha)]

theorem romv_ext {s t : State} (hs : Memory.wf .romv s.romv = true) (ht : Memory.wf .romv t.romv = true)
    (h : ∀ a, romByte s a = romByte t a) : s.romv = t.romv :=
  viewOf_ext (v := .romv) hs ht fun a => by rw [memRead_romv, memRead_romv, h]

theorem opv_ext {s t : State} (hs : Memory.wf .opv s.opv = true) (ht : Memory.wf .opv t.opv = true)
    (h : ∀ a, memRead .opv a s = memRead .opv a t) : s.opv = t.opv :=
  viewOf_ext (v := .opv) hs ht h

theorem state_ext {s t : State} (romv : s.romv = t.romv) (opv : s.opv = t.opv) (cnt : s.cnt = t.cnt) (src : s.src = t.src)
    (phase : s.phase = t.phase) (cause : s.cause = t.cause) (keycfg : s.keycfg = t.keycfg) (key : s.key = t.key)
    (permTable : s.permTable = t.permTable) (pending : s.pending = t.pending) (returned : s.returned = t.returned) :
    s = t := by
  cases s
  cases t
  exact (State.mk.injEq ..).mpr
    ⟨romv, opv, cnt, src, phase, cause, keycfg, key, permTable, pending, returned⟩

/-- Settles O29: equal bytes and equal canonical forms make the memories equal; the other fields one by one. -/
theorem atomicDecodeIsTheStepwiseOne : Obligations.AtomicDecodeIsTheStepwiseOne := by
  unfold Obligations.AtomicDecodeIsTheStepwiseOne
  intro s romvWf opvWf hp hc
  obtain ⟨cause, keycfg, key, permTable, pending, returned⟩ := decodeAll_keeps s
  obtain ⟨romvWf', opvWf'⟩ : Memory.wf .romv (decodeAll s).romv = true ∧ Memory.wf .opv (decodeAll s).opv = true :=
    decodeAll_keep (P := fun u => Memory.wf .romv u.romv = true ∧ Memory.wf .opv u.opv = true)
      (fun _ _ ⟨romvWf, opvWf⟩ => decodeStep_wf romvWf opvWf) ⟨romvWf, opvWf⟩
  obtain ⟨romvAtomic, opvAtomic⟩ := decodeAtomic_wf s
  have romv : (decodeAll s).romv = (decodeAtomic s).romv := romv_ext romvWf' romvAtomic fun a => by
    rw [(decodeAll_bytes hp hc a).1, romByte_decodeAtomic]
  have opv : (decodeAll s).opv = (decodeAtomic s).opv := opv_ext opvWf' opvAtomic fun a => by
    rw [(decodeAll_bytes hp hc a).2, memRead_opv_decodeAtomic]
  exact state_ext romv opv (decodeAll_cnt hp hc) (decodeAll_src hp hc) (decodeAll_phase hp hc) cause keycfg key permTable
    pending returned

/-! ### What an output depends on -/

/-- A path uses the row of the address and nothing else of it (R425). -/
theorem xform_congr_row {a a' : Address} (h : row a = row a') (T : Vector PermTuple 24) (K : EffectiveKey) (src : Byte)
    (p : Path) : xform T K src a p = xform T K src a' p := by
  have entry : keyEntry a p = keyEntry a' p := Fin.ext (by rw [keyEntry_val, keyEntry_val, h])
  simp only [xform, entry]

/-- Settles O30: each output is a transform of the byte, by the key entry of the row. -/
theorem outputsDependOnByteRowAndKey : Obligations.OutputsDependOnByteRowAndKey := by
  unfold Obligations.OutputsDependOnByteRowAndKey
  intro s s' a a' hp hp' hc hc' key permTable hrow byte
  obtain ⟨dataByte, opByte⟩ := decodeAll_bytes hp hc a
  obtain ⟨dataByte', opByte'⟩ := decodeAll_bytes hp' hc' a'
  rw [memRead_romv, memRead_romv, dataByte, opByte, dataByte', opByte', key, permTable, byte]
  exact ⟨congrArg some (xform_congr_row hrow _ _ _ .opcode), congrArg some (xform_congr_row hrow _ _ _ .data)⟩

end Sys2Proof.Machine

/-! PROOFS. The laws of PERMUTE and of the inverse tuple (R405, R406, R424), of a key entry's transform (R429, R704), and of ROW
(R422). -/

namespace Sys2Proof.Machine

/-! ### PERMUTE as a map of bit positions -/

/-- The bit of the source that PERMUTE places at a position (R423). -/
def sourceBit (t : PermTuple) (i : Nat) : Nat :=
  if i = 6 then t.p0 else if i = 4 then t.p1 else if i = 2 then t.p2 else if i = 0 then t.p3 else i

theorem permute_getLsbD_sourceBit (x : Byte) (t : PermTuple) {i : Nat} (hi : i < 8) :
    (permute x t).getLsbD i = x.getLsbD (sourceBit t i) := by
  rw [permute_getLsbD x t hi, sourceBit]
  split_ifs <;> rfl

/-- Two tuples undo each other's PERMUTE when their maps of positions do. -/
theorem permute_permute_of_sourceBit {t t' : PermTuple}
    (h : ∀ i < 8, sourceBit t' i < 8 ∧ sourceBit t (sourceBit t' i) = i) (x : Byte) : permute (permute x t) t' = x := by
  refine BitVec.eq_of_getLsbD_eq fun i hi => ?_
  obtain ⟨inByte, undone⟩ := h i hi
  rw [permute_getLsbD_sourceBit _ _ hi, permute_getLsbD_sourceBit _ _ inByte, undone]

section tupleOk
variable {t : PermTuple} (ht : tupleOk t = true)
include ht

theorem tupleOk_inverseTuple : tupleOk (inverseTuple t) = true := by
  revert t
  simp only [tupleOk_iff_mem]
  decide

/-- INV undoes PERMUTE (R406, R424 part b). -/
theorem permute_permute_inverseTuple (x : Byte) : permute (permute x t) (inverseTuple t) = x := by
  refine permute_permute_of_sourceBit ?_ x
  revert t
  simp only [tupleOk_iff_mem]
  decide

/-- PERMUTE undoes INV. -/
theorem permute_inverseTuple_permute (y : Byte) : permute (permute y (inverseTuple t)) t = y := by
  refine permute_permute_of_sourceBit ?_ y
  revert t
  simp only [tupleOk_iff_mem]
  decide

theorem permute_bijective : Function.Bijective fun x : Byte => permute x t :=
  Function.bijective_iff_has_inverse.2
    ⟨fun y => permute y (inverseTuple t), permute_permute_inverseTuple ht, permute_inverseTuple_permute ht⟩

/-- PERMUTE keeps the number of set even bits: its even source positions are the even positions in another order. -/
theorem permute_evenBits_length (x : Byte) : ([6, 4, 2, 0].filter fun i => (permute x t).getLsbD i).length =
    ([6, 4, 2, 0].filter fun i => x.getLsbD i).length := by
  have positions : (tupleElements t).Perm [6, 4, 2, 0] :=
    ((tupleOk_iff_perm t).1 ht).trans (by decide)
  have inByte : ∀ i ∈ [6, 4, 2, 0], i < 8 := by decide
  have evenBits : ([6, 4, 2, 0].map fun i => (permute x t).getLsbD i) = (tupleElements t).map fun p => x.getLsbD p :=
    (List.map_congr_left fun i hi => permute_getLsbD_sourceBit x t (inByte i hi)).trans rfl
  calc ([6, 4, 2, 0].filter fun i => (permute x t).getLsbD i).length
      = ([6, 4, 2, 0].map fun i => (permute x t).getLsbD i).countP id := by
        rw [List.countP_map, List.countP_eq_length_filter]; rfl
    _ = (tupleElements t).countP fun p => x.getLsbD p := by rw [evenBits, List.countP_map]; rfl
    _ = [6, 4, 2, 0].countP fun p => x.getLsbD p := positions.countP_eq _
    _ = ([6, 4, 2, 0].filter fun i => x.getLsbD i).length := List.countP_eq_length_filter

end tupleOk

/-- PERMUTE is linear over XOR (R424, part c), for every tuple. -/
theorem permute_xor (x y : Byte) (t : PermTuple) : permute (x ^^^ y) t = permute x t ^^^ permute y t := by
  refine BitVec.eq_of_getLsbD_eq fun i hi => ?_
  simp only [BitVec.getLsbD_xor, permute_getLsbD_sourceBit _ _ hi]

/-- PERMUTE keeps the odd bits (R424, part d), for every tuple. -/
theorem permute_and_0xAA (x : Byte) (t : PermTuple) : permute x t &&& 0xAA = x &&& 0xAA := by
  have kept : ∀ i < 8, (0xAA : Byte).getLsbD i = true → sourceBit t i = i := by
    intro i hi
    interval_cases i <;> simp [sourceBit]
  refine BitVec.eq_of_getLsbD_eq fun i hi => ?_
  rw [BitVec.getLsbD_and, BitVec.getLsbD_and, permute_getLsbD_sourceBit x t hi]
  cases odd : (0xAA : Byte).getLsbD i
  · rw [Bool.and_false, Bool.and_false]
  · rw [kept i hi odd]

/-- Settles O50: PERMUTE maps positions, which INV maps back; XOR and the odd bits are looked at bit by bit. -/
theorem permuteLaws : Obligations.PermuteLaws := by
  unfold Obligations.PermuteLaws
  exact ⟨fun t ht => ⟨permute_bijective ht, permute_permute_inverseTuple ht, fun x y => permute_xor x y t,
    fun x => permute_and_0xAA x t, permute_evenBits_length ht⟩, permute_identity⟩

/-- The ten tuples that R406 lists as their own inverse. -/
def selfInverseTuples : List PermTuple :=
  [⟨6, 4, 2, 0⟩, ⟨4, 6, 2, 0⟩, ⟨2, 4, 6, 0⟩, ⟨0, 4, 2, 6⟩, ⟨6, 2, 4, 0⟩, ⟨6, 0, 2, 4⟩, ⟨6, 4, 0, 2⟩, ⟨4, 6, 0, 2⟩,
    ⟨2, 0, 6, 4⟩, ⟨0, 2, 4, 6⟩]

theorem inverseTuple_eq_self_iff {t : PermTuple} (ht : tupleOk t = true) : inverseTuple t = t ↔ t ∈ selfInverseTuples := by
  revert t
  simp only [tupleOk_iff_mem]
  decide

/-- The inverse tuple has position `pos[i]` at `j` where the tuple has `pos[j]` at `i` (R406). -/
theorem inverseTuple_position {t : PermTuple} (ht : tupleOk t = true) : ∀ i < 4, ∀ j < 4,
    (tupleElements t)[i]? = [6, 4, 2, 0][j]? → (tupleElements (inverseTuple t))[j]? = [6, 4, 2, 0][i]? := by
  revert t
  simp only [tupleOk_iff_mem]
  decide

/-- Settles O51: each law is one of the 24 tuples'. -/
theorem inverseTupleUndoesPermute : Obligations.InverseTupleUndoesPermute := by
  unfold Obligations.InverseTupleUndoesPermute
  exact fun t ht => ⟨tupleOk_inverseTuple ht, permute_permute_inverseTuple ht,
    fun i j hi hj => inverseTuple_position ht i hi j hj, inverseTuple_eq_self_iff ht⟩

/-- Settles O48: the identity tuple is one of the permutations that an accepted table lists. -/
theorem identityTupleStandsInTheTable : Obligations.IdentityTupleStandsInTheTable := by
  unfold Obligations.IdentityTupleStandsInTheTable
  refine ⟨fun T hT => ?_, fun x => ⟨permute_identity x, by rw [permute_identity, permute_identity]⟩⟩
  obtain ⟨_, _, _, listed⟩ := permTableListsEachPermutationOnce T hT
  exact listed ⟨6, 4, 2, 0⟩ (by decide)

/-! ### The transform of a key entry -/

theorem permute_zero (t : PermTuple) : permute 0 t = 0 := by
  refine BitVec.eq_of_getLsbD_eq fun i hi => ?_
  rw [permute_getLsbD_sourceBit _ _ hi]
  exact BitVec.getLsbD_zero.trans BitVec.getLsbD_zero.symm

/-- A checked tuple whose PERMUTE undoes itself is its own inverse: the four bytes with one even bit tell. -/
theorem inverseTuple_eq_self_of_permute {t : PermTuple} (ht : tupleOk t = true) (h : ∀ x, permute (permute x t) t = x) :
    inverseTuple t = t := by
  have all : ∀ t, tupleOk t = true → (∀ x ∈ [0x40, 0x10, 0x04, 0x01], permute (permute x t) t = x) → inverseTuple t = t := by
    simp only [tupleOk_iff_mem]
    decide
  exact all t ht fun x _ => h x

section entryTransform
variable {t : PermTuple} (c : Byte)

/-- A transform applied twice (R429, part b), for every tuple. -/
theorem entryTransform_entryTransform (x : Byte) :
    entryTransform t c (entryTransform t c x) = permute (permute x t) t ^^^ permute c t ^^^ c := by
  rw [entryTransform, entryTransform, permute_xor]

theorem entryInverse_entryTransform (ht : tupleOk t = true) (x : Byte) :
    entryInverse t c (entryTransform t c x) = x := by
  rw [entryInverse, entryTransform, BitVec.xor_assoc, BitVec.xor_self, BitVec.xor_zero, permute_permute_inverseTuple ht]

theorem entryTransform_entryInverse (ht : tupleOk t = true) (y : Byte) :
    entryTransform t c (entryInverse t c y) = y := by
  rw [entryTransform, entryInverse, permute_inverseTuple_permute ht, BitVec.xor_assoc, BitVec.xor_self, BitVec.xor_zero]

theorem entryTransform_bijective (ht : tupleOk t = true) : Function.Bijective (entryTransform t c) :=
  Function.bijective_iff_has_inverse.2
    ⟨entryInverse t c, entryInverse_entryTransform c ht, entryTransform_entryInverse c ht⟩

/-- The transform is its own inverse exactly when the tuple is and PERMUTE fixes the XOR value (R429, part c). -/
theorem entryTransform_involutive_iff (ht : tupleOk t = true) :
    (∀ x, entryTransform t c (entryTransform t c x) = x) ↔ inverseTuple t = t ∧ permute c t = c := by
  simp only [entryTransform_entryTransform]
  constructor
  · intro h
    have fixed : permute c t = c := by
      have atZero := h 0
      rw [permute_zero, permute_zero, BitVec.xor_assoc] at atZero
      exact BitVec.xor_eq_zero_iff.1 (BitVec.zero_xor.symm.trans atZero)
    refine ⟨inverseTuple_eq_self_of_permute ht fun x => ?_, fixed⟩
    have atX := h x
    rwa [fixed, BitVec.xor_assoc, BitVec.xor_self, BitVec.xor_zero] at atX
  · rintro ⟨selfInverse, fixed⟩ x
    have undone := permute_permute_inverseTuple ht x
    rw [selfInverse] at undone
    rw [undone, fixed, BitVec.xor_assoc, BitVec.xor_self, BitVec.xor_zero]

end entryTransform

/-- Settles O56: the laws of a key entry's transform; the identity tuple undoes itself and fixes every XOR value. -/
theorem transformInverseAndInvolution : Obligations.TransformInverseAndInvolution := by
  unfold Obligations.TransformInverseAndInvolution
  intro t c ht
  refine ⟨entryTransform_bijective c ht,
    fun x => ⟨entryInverse_entryTransform c ht x, entryTransform_entryInverse c ht x⟩, entryTransform_entryTransform c,
    entryTransform_involutive_iff c ht, fun x c' => ?_⟩
  exact (entryTransform_involutive_iff c' (by decide)).2 ⟨by decide, permute_identity c'⟩ x

/-- Under an accepted table each path is a bijection at each address. -/
theorem xform_injective {T : List PermTuple} (hT : permCheck T = true) (K : EffectiveKey) (a : Address) (p : Path) :
    Function.Injective fun x => xform (permVector T) K x a p := by
  obtain ⟨_, entries, _, _⟩ := permTableListsEachPermutationOnce T hT
  have ok : tupleOk (perm (permVector T) K.selt[keyEntry a p]) = true := (tupleOk_iff_perm _).2 (entries _).2
  exact (entryTransform_bijective K.xort[keyEntry a p] ok).injective

/-- Settles O57: a byte that the data path changes is changed for the opcode path too, which is injective. -/
theorem writingBeforeReadingIsWrong : Obligations.WritingBeforeReadingIsWrong := by
  unfold Obligations.WritingBeforeReadingIsWrong
  rintro T K a hT ⟨x, changed⟩
  exact ⟨x, fun same => changed (xform_injective hT K a .opcode same)⟩

/-! ### ROW -/

theorem addressBit_xor (a m : Address) (i : Nat) : addressBit (a ^^^ m) i = addressBit a i ^^^ addressBit m i := by
  rw [addressBit, BitVec.extractLsb'_xor]
  rfl

/-- ROW is linear over XOR. -/
theorem row_xor (a m : Address) : row (a ^^^ m) = row a ^^^ row m := by
  simp only [row, addressBit_xor]
  exact (BitVec.xor_append.trans (by simp only [BitVec.xor_append])).symm

/-- A mask that sets no bit of ROW has row 0. -/
theorem row_eq_zero_of_mask {m : Address} (h : m &&& 0x5249 = 0) : row m = 0 := by
  have clear : ∀ i, (0x5249 : Address).getLsbD i = true → m.getLsbD i = false := fun i hi => by
    have bit : (m &&& 0x5249).getLsbD i = false := by rw [h]; exact BitVec.getLsbD_zero
    rwa [BitVec.getLsbD_and, hi, Bool.and_true] at bit
  rw [row_eq_concat, clear 14 (by decide), clear 12 (by decide), clear 9 (by decide), clear 6 (by decide),
    clear 3 (by decide), clear 0 (by decide)]
  decide

/-- An address of a row: the bits of the row at the six positions, 0 elsewhere. -/
def addressOfRow (r : BitVec 6) : Address :=
  r.extractLsb' 5 1 ++ 0#1 ++ r.extractLsb' 4 1 ++ 0#2 ++ r.extractLsb' 3 1 ++ 0#2 ++ r.extractLsb' 2 1 ++ 0#2 ++
    r.extractLsb' 1 1 ++ 0#2 ++ r.extractLsb' 0 1

theorem row_addressOfRow (r : BitVec 6) : row (addressOfRow r) = r := by
  have all : ∀ r : BitVec 6, row (addressOfRow r) = r := by decide
  exact all r

/-- All rows have equally many addresses: XOR with an address of a row carries row 0 to it. -/
theorem row_card_eq (r : BitVec 6) : (Finset.univ.filter fun a : Address => row a = r).card =
    (Finset.univ.filter fun a : Address => row a = 0).card := by
  have carries : ∀ a : Address, row (a ^^^ addressOfRow r) = 0 ↔ row a = r := fun a => by
    rw [row_xor, row_addressOfRow]
    exact BitVec.xor_eq_zero_iff
  have twice : ∀ a : Address, a ^^^ addressOfRow r ^^^ addressOfRow r = a := fun a => by
    rw [BitVec.xor_assoc, BitVec.xor_self, BitVec.xor_zero]
  refine Finset.card_nbij' (· ^^^ addressOfRow r) (· ^^^ addressOfRow r) ?_ ?_ (fun a _ => twice a) (fun a _ => twice a)
  · intro a ha
    rw [Finset.mem_coe, Finset.mem_filter_univ] at ha ⊢
    exact (carries a).2 ha
  · intro a ha
    rw [Finset.mem_coe, Finset.mem_filter_univ] at ha ⊢
    exact (carries _).1 (by rwa [twice])

/-- A function with equally large fibers shares its domain out among its values. -/
theorem card_eq_mul_of_fibers {α β : Type} [Fintype α] [Fintype β] [DecidableEq β] {f : α → β} {n : Nat}
    (h : ∀ b, (Finset.univ.filter fun a => f a = b).card = n) : Fintype.card α = Fintype.card β * n := by
  have total := Finset.card_eq_sum_card_fiberwise (f := f) (s := Finset.univ) (t := Finset.univ) fun _ _ => Finset.mem_univ _
  simpa [h] using total

/-- Each of the 64 rows has an equal share of the 32768 addresses. -/
theorem row_card (r : BitVec 6) : (Finset.univ.filter fun a : Address => row a = r).card = 512 := by
  have addresses : Fintype.card Address = 2 ^ 15 := FinEnum.card_eq_fintypeCard.symm.trans (FinEnum.card_bitVec 15)
  have rows : Fintype.card (BitVec 6) = 2 ^ 6 := FinEnum.card_eq_fintypeCard.symm.trans (FinEnum.card_bitVec 6)
  have total := card_eq_mul_of_fibers row_card_eq
  rw [addresses, rows] at total
  have share : ∀ n, 2 ^ 15 = 2 ^ 6 * n → n = 512 := by omega
  exact (row_card_eq r).trans (share _ total)

/-- Settles O53: ROW is linear over XOR, so masks without its bits do not move it and all rows are alike. -/
theorem rowIgnoresTheOtherBits : Obligations.RowIgnoresTheOtherBits := by
  unfold Obligations.RowIgnoresTheOtherBits
  exact ⟨fun a m h => (row_xor a m).trans (by rw [row_eq_zero_of_mask h]; exact BitVec.xor_zero), row_card⟩

end Sys2Proof.Machine

/-! PROOFS. The shift family (R470, R471), the selector field (R308), and the OPEN constants with the launch they give (R401, R462,
R463; logs 3, 5, 6, 7). -/

namespace Sys2Proof.Machine

/-! ### Neighbouring members of the shift family -/

/-- Settles O41: both windows list the master from their offsets on. -/
theorem neighbouringWindowsShiftByOne : Obligations.NeighbouringWindowsShiftByOne := by
  unfold Obligations.NeighbouringWindowsShiftByOne
  intro α M k hM hk
  refine ⟨fun i hi => ?_, ?_, ?_⟩
  · have shift : k + 1 + i = k + (i + 1) := by omega
    rw [window_getElem? (by omega), window_getElem? (by omega), shift]
    exact ⟨rfl, Option.isSome_of_eq_some (List.getElem?_eq_getElem (by omega))⟩
  · rw [window_getElem? (by omega), Nat.add_assoc]
  · exact Option.isSome_of_eq_some (List.getElem?_eq_getElem (by omega))

section shifted
variable {mxor : List Byte} {msel : List Nat} {k : Nat} (hk : keyWellFormed (.shifted mxor msel k) = true) (hle : k ≤ 2)
include hk hle

/-- The next member of the family is well formed, too. -/
theorem keyWellFormed_next : keyWellFormed (.shifted mxor msel (k + 1)) = true := by
  obtain ⟨lengths, _, selectors⟩ := (keyWellFormed_iff _).1 hk
  exact (keyWellFormed_iff _).2 ⟨lengths, (keyOffsetOk_shifted mxor msel (k + 1)).2 (by omega), selectors⟩

/-- The next member's entries are those of the masters one further on. -/
theorem next_entry (i : Fin 128) :
    mxor[k + 1 + i.val]? = some ((effectiveKey (.shifted mxor msel (k + 1))).xort[i]) ∧
    msel[k + 1 + i.val]? = some ((effectiveKey (.shifted mxor msel (k + 1))).selt[i]).val :=
  effectiveKeyOfEitherForm.2 mxor msel (k + 1) (keyWellFormed_next hk hle) i

/-- Entry `i` of the next member is entry `i + 1` of this one. -/
theorem next_entry_eq {i : Nat} (hi : i + 1 < 128) :
    (effectiveKey (.shifted mxor msel (k + 1))).xort[i] = (effectiveKey (.shifted mxor msel k)).xort[i + 1] ∧
    (effectiveKey (.shifted mxor msel (k + 1))).selt[i] = (effectiveKey (.shifted mxor msel k)).selt[i + 1] := by
  obtain ⟨nextXor, nextSel⟩ := next_entry hk hle ⟨i, by omega⟩
  obtain ⟨xor, sel⟩ := effectiveKeyOfEitherForm.2 mxor msel k hk ⟨i + 1, hi⟩
  have shift : k + 1 + i = k + (i + 1) := by omega
  rw [shift] at nextXor nextSel
  exact ⟨Option.some.inj (nextXor.symm.trans xor), Fin.ext (Option.some.inj (nextSel.symm.trans sel))⟩

/-- The opcode path of the next member is the data path of this one (R471, part c). -/
theorem xformOp_next (T : Vector PermTuple 24) (src : Byte) (a : Address) :
    xformOp T (effectiveKey (.shifted mxor msel (k + 1))) src a = xformData T (effectiveKey (.shifted mxor msel k)) src a := by
  have hr : 2 * (row a).toNat + 1 < 128 := by
    have := (row a).isLt
    omega
  obtain ⟨xor, sel⟩ := next_entry_eq hk hle hr
  have even : (keyEntry a .opcode).val = 2 * (row a).toNat := keyEntry_val a .opcode
  have odd : (keyEntry a .data).val = 2 * (row a).toNat + 1 := keyEntry_val a .data
  rw [xformOp, xformData, xform_of_entry _ _ _ (by omega) even, xform_of_entry _ _ _ hr odd, xor, sel]

end shifted

/-- Settles O42: the rows' entries by the shift of one, the last entry from the masters, and the paths by their entries. -/
theorem neighbouringMembersExchangeThePaths : Obligations.NeighbouringMembersExchangeThePaths := by
  unfold Obligations.NeighbouringMembersExchangeThePaths
  intro T mxor msel k hk hle
  exact ⟨fun r hr => next_entry_eq hk hle (i := 2 * r) (by omega), fun r hr => next_entry_eq hk hle (i := 2 * r + 1) (by omega),
    next_entry hk hle 127, xformOp_next hk hle T⟩

/-! ### The selector field -/

/-- Settles O58: the field of each selector, and check 5 of R467 for a key that lists a value above 23. -/
theorem selectorFieldHoldsZeroTo23 : Obligations.SelectorFieldHoldsZeroTo23 := by
  unfold Obligations.SelectorFieldHoldsZeroTo23
  refine ⟨by decide, fun f hf => ⟨dif_neg (Nat.not_lt.2 hf), fun L xor sel hv hi ho hd hx hs hmem => ?_⟩⟩
  rw [keycheck_of_sizes (resolveKey_direct hv) hi ho, hd]
  exact ((keyTablesCause_plain xor sel).2 hx hs).1 ⟨f.toNat, hmem, hf⟩

/-! ### The OPEN constants -/

/-- The opaque table passes PERMCHECK, whatever its order (R401): it lists the 24 tuples, permuted. -/
theorem permCheck_permTable : permCheck Config.permTable = true := by
  have reordered : Config.permTable.Perm Config.allTuples.toList := by
    have listed : Config.allTuples.toList = (List.finRange 24).map fun s => Config.allTuples[s] := by decide
    have order := (Config.permOrder.map_finRange_perm).map fun s => Config.allTuples[s]
    rw [List.map_map, ← listed] at order
    exact order
  rw [permCheck_iff]
  refine ⟨reordered.length_eq, fun t ht => (tupleOk_iff_mem t).2 (reordered.mem_iff.1 ht), ?_⟩
  exact reordered.nodup_iff.2 (by decide)

/-- The member of the opaque shift family at an offset (log 6). -/
def familyMember (o : Nat) : List Byte × List Nat × Nat :=
  (List.ofFn Config.masterXor, List.ofFn fun i => (Config.masterSel i).val, o)

/-- The SHIFTED entries of the opaque catalogue are the members at the offsets 0 to 3, in the order of the placement. -/
theorem shiftMembers_catalogue : (shiftMembers Config.catalogue).Perm ([0, 1, 2, 3].map familyMember) := by
  have placed : shiftMembers Config.catalogue = ((List.finRange 11).map Config.place).filterMap fun p =>
      if p.val ≤ 3 then some (familyMember p.val) else none := by
    rw [shiftMembers, Config.catalogue, List.filterMap_map, List.filterMap_map]
    refine List.filterMap_congr fun v _ => ?_
    by_cases offset : (Config.place v).val ≤ 3
    · simp only [Function.comp, Config.catalogueEntry, Config.maxOffset_eq, if_pos offset, familyMember]
    · simp only [Function.comp, Config.catalogueEntry, Config.maxOffset_eq, if_neg offset]
  rw [placed]
  exact (Config.place.map_finRange_perm).filterMap _

/-- Every entry of the opaque catalogue is well formed. -/
theorem keyWellFormed_catalogueEntry (v : Fin 11) : keyWellFormed (Config.catalogueEntry v) = true := by
  unfold Config.catalogueEntry
  rw [keyWellFormed_iff]
  split
  · next offset =>
    refine ⟨(keyLengthsOk_shifted _ _ _).2 ⟨List.length_ofFn, List.length_ofFn⟩, (keyOffsetOk_shifted _ _ _).2 offset,
      (keySelectorsOk_shifted _ _ (Config.place v).val).2 ?_⟩
    exact (List.forall_mem_ofFn_iff (P := (· < 24))).2 fun i => (Config.masterSel i).isLt
  · refine ⟨(keyLengthsOk_plain _ _).2 ⟨List.length_ofFn, List.length_ofFn⟩, rfl, (keySelectorsOk_plain _ _).2 ?_⟩
    exact (List.forall_mem_ofFn_iff (P := (· < 24))).2 fun i => (Config.plainSel v i).isLt

theorem catalogue_length : Config.catalogue.length = 11 := by
  rw [Config.catalogue, List.length_map, List.length_finRange]

/-- R463 in its own words: four SHIFTED entries, one pair of masters, and each of the four offsets. -/
theorem shiftFamilyOk_iff (C : List KeyConfig) : shiftFamilyOk C = true ↔
    (shiftMembers C).length = 4 ∧
    (∀ m ∈ shiftMembers C, ∀ m' ∈ shiftMembers C, m.1 = m'.1 ∧ m.2.1 = m'.2.1) ∧
    ∀ o ∈ [0, 1, 2, 3], ∃ m ∈ shiftMembers C, m.2.2 = o := by
  simp only [shiftFamilyOk, Bool.and_eq_true, List.all_eq_true, List.any_eq_true, beq_iff_eq, and_assoc]

theorem mem_shiftMembers_catalogue (m : List Byte × List Nat × Nat) :
    m ∈ shiftMembers Config.catalogue ↔ ∃ o ∈ [0, 1, 2, 3], familyMember o = m :=
  shiftMembers_catalogue.mem_iff.trans List.mem_map

theorem shiftFamilyOk_catalogue : shiftFamilyOk Config.catalogue = true := by
  refine (shiftFamilyOk_iff _).2 ⟨shiftMembers_catalogue.length_eq, fun m hm m' hm' => ?_, fun o ho => ?_⟩
  · obtain ⟨o, _, rfl⟩ := (mem_shiftMembers_catalogue m).1 hm
    obtain ⟨o', _, rfl⟩ := (mem_shiftMembers_catalogue m').1 hm'
    exact ⟨rfl, rfl⟩
  · exact ⟨familyMember o, (mem_shiftMembers_catalogue _).2 ⟨o, ho, rfl⟩, rfl⟩

theorem catalogueOk_catalogue : catalogueOk Config.catalogue = true := by
  refine (catalogueOk_iff _).2 ⟨catalogue_length, fun k hk => ?_, shiftFamilyOk_catalogue⟩
  obtain ⟨v, _, rfl⟩ := List.mem_map.1 hk
  exact keyWellFormed_catalogueEntry v

/-- Settles O44: the table is the 24 tuples permuted, and the SHIFTED entries are the family permuted. -/
theorem openConstantsAreAsStated : Obligations.OpenConstantsAreAsStated := by
  unfold Obligations.OpenConstantsAreAsStated
  refine ⟨permCheck_permTable, catalogueOk_catalogue, catalogue_length, shiftMembers_catalogue.length_eq, fun o ho => ?_⟩
  have offsets : ∀ o ≤ 3, o ∈ [0, 1, 2, 3] := by decide
  exact (mem_shiftMembers_catalogue _).2 ⟨o, offsets o ho, rfl⟩

/-! ### The reset state -/

/-- Settles O45: the launch is accepted, and KEYCHECK passes with entry 0 of the catalogue. -/
theorem resetIsALaunch : Obligations.ResetIsALaunch := by
  unfold Obligations.ResetIsALaunch
  have resolved : resolveKey resetLaunch.variant resetLaunch.catalogue resetLaunch.keyDirect =
      some (Config.catalogueEntry 0) := rfl
  have passed : keycheck resetLaunch = none :=
    (keycheck_of_sizes resolved rfl rfl).trans (keyTablesCause_of_wellFormed (keyWellFormed_catalogueEntry 0))
  obtain ⟨k, resolved', reset⟩ := resetSequence_of_keycheck_none passed
  obtain rfl := Option.some.inj (resolved.symm.trans resolved')
  rw [launch_of_accepted permCheck_permTable catalogueOk_catalogue, reset]
  rfl

/-- Settles O32: the reset state is a launch, and every launch has the invariant. -/
theorem resetHasTheInvariant : Obligations.ResetHasTheInvariant :=
  launchHasTheInvariant resetLaunch State.reset resetIsALaunch

end Sys2Proof.Machine
